-- ==== Sys2Proof/Word.lean ====
section
/-! DEFINITION. The word types of the SIC/XE core: bytes, 24-bit words, register numbers and text
(spec/00_scope.md R8, R10, spec/10_state.md R20). -/

namespace Sys2Proof

/-- A memory byte (R8). -/
abbrev Byte := BitVec 8

/-- A 24-bit word: a register, an address, one of the source's "3-byte quantities" (R8, R20). -/
abbrev Word := BitVec 24

/-- A format-2 register index, 4 bits (R8, R21). -/
abbrev RegNo := BitVec 4

/-- The six opcode bits of byte 0, bits 7 to 2 (spec/30_encoding.md R85). -/
abbrev OpCode := BitVec 6

/-- Text of an object file, a name or a symbol, as a list of characters (spec/50_loader.md R262). -/
abbrev Text := List Char

end Sys2Proof
end

