-- ==== Sys2Proof/Syntax.lean ====
section
/-! DEFINITION. The abstract syntax of the 37 instructions (spec/00_scope.md R3, spec/30_encoding.md R88):
the operation names, the format-3/4 operand with its six flag bits, and the instructions. -/

namespace Sys2Proof

/-- The 37 operation names of the opcode map (R3, R88), in the order of spec/opcode_table.json's classes. -/
inductive Op where
  | lda
  | ldx
  | ldl
  | ldb
  | lds
  | ldt
  | sta
  | stx
  | stl
  | stb
  | sts
  | stt
  | ldch
  | stch
  | add
  | sub
  | mul
  | div
  | comp
  | tix
  | j
  | jeq
  | jlt
  | jgt
  | jsub
  | rsub
  | td
  | rd
  | wd
  | addr
  | subr
  | mulr
  | divr
  | compr
  | rmo
  | clear
  | tixr
deriving DecidableEq, Repr

/-- Every operation name, once (R3). -/
def Op.all : List Op :=
  [.lda, .ldx, .ldl, .ldb, .lds, .ldt, .sta, .stx, .stl, .stb,
   .sts, .stt, .ldch, .stch, .add, .sub, .mul, .div, .comp, .tix,
   .j, .jeq, .jlt, .jgt, .jsub, .rsub, .td, .rd, .wd, .addr,
   .subr, .mulr, .divr, .compr, .rmo, .clear, .tixr]

/-- Format 2 holds exactly the eight register-register operations; every other operation is format 3/4
(spec/30_encoding.md R87). -/
def Op.isFormat2 : Op → Bool
  | .addr => true
  | .subr => true
  | .mulr => true
  | .divr => true
  | .compr => true
  | .rmo => true
  | .clear => true
  | .tixr => true
  | .lda => false
  | .ldx => false
  | .ldl => false
  | .ldb => false
  | .lds => false
  | .ldt => false
  | .sta => false
  | .stx => false
  | .stl => false
  | .stb => false
  | .sts => false
  | .stt => false
  | .ldch => false
  | .stch => false
  | .add => false
  | .sub => false
  | .mul => false
  | .div => false
  | .comp => false
  | .tix => false
  | .j => false
  | .jeq => false
  | .jlt => false
  | .jgt => false
  | .jsub => false
  | .rsub => false
  | .td => false
  | .rd => false
  | .wd => false

/-- The operand of a format-3/4 instruction: the flags n, i, x, b, p, e and the displacement or address
field (R83, R84). `field` is addr20 when `e` is set; when `e` is clear it is disp12 in its low 12 bits, and
a well-formed operand has the 8 bits above them clear (Sys2Proof/WellFormed.lean). -/
structure MemOp where
  n : Bool
  i : Bool
  x : Bool
  b : Bool
  p : Bool
  e : Bool
  field : BitVec 20
deriving DecidableEq, Repr

/-- The length in bytes of a format-3/4 instruction: 4 when `e` is set, else 3 (R80, R86). -/
def MemOp.len (m : MemOp) : Nat := if m.e then 4 else 3

/-- One constructor per row of spec/opcode_table.json. -/
inductive Instr where
  /-- LDA, format 3/4, R141. -/
  | lda (m : MemOp)
  /-- LDX, format 3/4, R142. -/
  | ldx (m : MemOp)
  /-- LDL, format 3/4, R143. -/
  | ldl (m : MemOp)
  /-- LDB, format 3/4, R144. -/
  | ldb (m : MemOp)
  /-- LDS, format 3/4, R145. -/
  | lds (m : MemOp)
  /-- LDT, format 3/4, R146. -/
  | ldt (m : MemOp)
  /-- STA, format 3/4, R147. -/
  | sta (m : MemOp)
  /-- STX, format 3/4, R148. -/
  | stx (m : MemOp)
  /-- STL, format 3/4, R149. -/
  | stl (m : MemOp)
  /-- STB, format 3/4, R150. -/
  | stb (m : MemOp)
  /-- STS, format 3/4, R151. -/
  | sts (m : MemOp)
  /-- STT, format 3/4, R152. -/
  | stt (m : MemOp)
  /-- LDCH, format 3/4, R153. -/
  | ldch (m : MemOp)
  /-- STCH, format 3/4, R154. -/
  | stch (m : MemOp)
  /-- ADD, format 3/4, R171. -/
  | add (m : MemOp)
  /-- SUB, format 3/4, R172. -/
  | sub (m : MemOp)
  /-- MUL, format 3/4, R173. -/
  | mul (m : MemOp)
  /-- DIV, format 3/4, R174. -/
  | div (m : MemOp)
  /-- COMP, format 3/4, R202. -/
  | comp (m : MemOp)
  /-- TIX, format 3/4, R204. -/
  | tix (m : MemOp)
  /-- J, format 3/4, R220. -/
  | j (m : MemOp)
  /-- JEQ, format 3/4, R222. -/
  | jeq (m : MemOp)
  /-- JLT, format 3/4, R223. -/
  | jlt (m : MemOp)
  /-- JGT, format 3/4, R224. -/
  | jgt (m : MemOp)
  /-- JSUB, format 3/4, R225. -/
  | jsub (m : MemOp)
  /-- RSUB, format 3/4, R226. -/
  | rsub (m : MemOp)
  /-- TD, format 3/4, R244. -/
  | td (m : MemOp)
  /-- RD, format 3/4, R245. -/
  | rd (m : MemOp)
  /-- WD, format 3/4, R246. -/
  | wd (m : MemOp)
  /-- ADDR r1,r2, format 2, R176. -/
  | addr (r1 r2 : RegNo)
  /-- SUBR r1,r2, format 2, R177. -/
  | subr (r1 r2 : RegNo)
  /-- MULR r1,r2, format 2, R178. -/
  | mulr (r1 r2 : RegNo)
  /-- DIVR r1,r2, format 2, R179. -/
  | divr (r1 r2 : RegNo)
  /-- COMPR r1,r2, format 2, R203. -/
  | compr (r1 r2 : RegNo)
  /-- RMO r1,r2, format 2, R180. -/
  | rmo (r1 r2 : RegNo)
  /-- CLEAR r1, format 2 with an unexamined r2 nibble (R92), R181. -/
  | clear (r1 : RegNo)
  /-- TIXR r1, format 2 with an unexamined r2 nibble (R92), R205. -/
  | tixr (r1 : RegNo)
deriving DecidableEq, Repr

/-- The operation of an instruction. -/
def Instr.op : Instr → Op
  | .lda _ => .lda
  | .ldx _ => .ldx
  | .ldl _ => .ldl
  | .ldb _ => .ldb
  | .lds _ => .lds
  | .ldt _ => .ldt
  | .sta _ => .sta
  | .stx _ => .stx
  | .stl _ => .stl
  | .stb _ => .stb
  | .sts _ => .sts
  | .stt _ => .stt
  | .ldch _ => .ldch
  | .stch _ => .stch
  | .add _ => .add
  | .sub _ => .sub
  | .mul _ => .mul
  | .div _ => .div
  | .comp _ => .comp
  | .tix _ => .tix
  | .j _ => .j
  | .jeq _ => .jeq
  | .jlt _ => .jlt
  | .jgt _ => .jgt
  | .jsub _ => .jsub
  | .rsub _ => .rsub
  | .td _ => .td
  | .rd _ => .rd
  | .wd _ => .wd
  | .addr _ _ => .addr
  | .subr _ _ => .subr
  | .mulr _ _ => .mulr
  | .divr _ _ => .divr
  | .compr _ _ => .compr
  | .rmo _ _ => .rmo
  | .clear _ => .clear
  | .tixr _ => .tixr

/-- The format-3/4 operand of an instruction; none for format 2. -/
def Instr.memOp? : Instr → Option MemOp
  | .lda m => some m
  | .ldx m => some m
  | .ldl m => some m
  | .ldb m => some m
  | .lds m => some m
  | .ldt m => some m
  | .sta m => some m
  | .stx m => some m
  | .stl m => some m
  | .stb m => some m
  | .sts m => some m
  | .stt m => some m
  | .ldch m => some m
  | .stch m => some m
  | .add m => some m
  | .sub m => some m
  | .mul m => some m
  | .div m => some m
  | .comp m => some m
  | .tix m => some m
  | .j m => some m
  | .jeq m => some m
  | .jlt m => some m
  | .jgt m => some m
  | .jsub m => some m
  | .rsub m => some m
  | .td m => some m
  | .rd m => some m
  | .wd m => some m
  | .addr _ _ => none
  | .subr _ _ => none
  | .mulr _ _ => none
  | .divr _ _ => none
  | .compr _ _ => none
  | .rmo _ _ => none
  | .clear _ => none
  | .tixr _ => none

/-- The register byte of a format-2 instruction as its two indices (R82); an instruction with no second
register, and a format-3/4 instruction, has 0 there. -/
def Instr.regPair : Instr → RegNo × RegNo
  | .addr r1 r2 => (r1, r2)
  | .subr r1 r2 => (r1, r2)
  | .mulr r1 r2 => (r1, r2)
  | .divr r1 r2 => (r1, r2)
  | .compr r1 r2 => (r1, r2)
  | .rmo r1 r2 => (r1, r2)
  | .clear r1 => (r1, 0#4)
  | .tixr r1 => (r1, 0#4)
  | .lda _ => (0#4, 0#4)
  | .ldx _ => (0#4, 0#4)
  | .ldl _ => (0#4, 0#4)
  | .ldb _ => (0#4, 0#4)
  | .lds _ => (0#4, 0#4)
  | .ldt _ => (0#4, 0#4)
  | .sta _ => (0#4, 0#4)
  | .stx _ => (0#4, 0#4)
  | .stl _ => (0#4, 0#4)
  | .stb _ => (0#4, 0#4)
  | .sts _ => (0#4, 0#4)
  | .stt _ => (0#4, 0#4)
  | .ldch _ => (0#4, 0#4)
  | .stch _ => (0#4, 0#4)
  | .add _ => (0#4, 0#4)
  | .sub _ => (0#4, 0#4)
  | .mul _ => (0#4, 0#4)
  | .div _ => (0#4, 0#4)
  | .comp _ => (0#4, 0#4)
  | .tix _ => (0#4, 0#4)
  | .j _ => (0#4, 0#4)
  | .jeq _ => (0#4, 0#4)
  | .jlt _ => (0#4, 0#4)
  | .jgt _ => (0#4, 0#4)
  | .jsub _ => (0#4, 0#4)
  | .rsub _ => (0#4, 0#4)
  | .td _ => (0#4, 0#4)
  | .rd _ => (0#4, 0#4)
  | .wd _ => (0#4, 0#4)

/-- The length of an instruction in bytes: 2 for format 2, 3 or 4 for format 3/4 (R80). -/
def Instr.len (i : Instr) : Nat :=
  match i.memOp? with
  | some m => m.len
  | none => 2

end Sys2Proof
end

