-- ==== Sys2Proof/Config.lean ====
section
/-! DEFINITION. What an implementation of the core fixes, and what its host leaves open: the parameters of
spec/00_scope.md R7 and the draws of the device oracle of spec/45_device_io.md R240. -/

namespace Sys2Proof

/-- `OPCODE_MAP` (R7, R88): opcode values with the operations they select. -/
abbrev OpcodeMap := List (OpCode × Op)

/-- `REG67_POLICY` (R7, R22, R23): what integer slots 6 and 7 are. -/
inductive Reg67Policy where
  /-- They hold 24-bit values (the default). -/
  | storage
  /-- They read 0 and ignore writes. -/
  | zero
deriving DecidableEq, Repr

/-- `IMM_REL_POLICY` (R7, R114, R115): the operand of an immediate with b or p set. -/
inductive ImmRelPolicy where
  /-- The field is the operand (the default). -/
  | field
  /-- The operand is the value the textbook formula gives the target address. -/
  | textbook
deriving DecidableEq, Repr

/-- `RSUB_POLICY` (R7, R226). -/
inductive RsubPolicy where
  /-- RSUB jumps to the address in L (the default). -/
  | jumpL
  /-- RSUB ends the run with a normal halt. -/
  | halt
deriving DecidableEq, Repr

/-- `BOUNDS_HALT_POLICY` (R7, R310): the class of a halt on a PC outside the program range. -/
inductive BoundsHaltPolicy where
  /-- Normal exactly after an RSUB (the default). -/
  | rsubNormal
  | alwaysNormal
  | alwaysError
deriving DecidableEq, Repr

/-- The parameters of R7 that are values. `Dev`, the remaining one, is the oracle below and the host side
of devices in State. -/
structure Params where
  /-- `MEM_SIZE`: how many bytes of memory exist. -/
  memSize : Nat
  /-- `LOAD_BASE`: where the loader places the first control section. -/
  loadBase : Word
  /-- `RUN_CEILING`: how many calls of step one run makes at most. -/
  runCeiling : Nat
  opcodeMap : OpcodeMap
  reg67 : Reg67Policy
  immRel : ImmRelPolicy
  rsub : RsubPolicy
  boundsHalt : BoundsHaltPolicy
deriving DecidableEq, Repr

/-- FREE VALUE. Whether the file a device id names exists at the host's `draw`-th device operation, for an
id about whose file nothing is known (R243). -/
opaque Config.fileExists : (draw : Nat) → (id : Byte) → Bool

/-- FREE VALUE. The host's answer to `Dev.test` for an existing device file (R240, R243, IMP12). -/
opaque Config.devTest : (draw : Nat) → (id : Byte) → Bool

/-- FREE VALUE. The host's answer to `Dev.read`: a byte, or none at end of stream or on failure (R240). -/
opaque Config.devRead : (draw : Nat) → (id : Byte) → Option Byte

/-- FREE VALUE. Whether the host's write of a byte succeeds (R246, IMP15). -/
opaque Config.devWrite : (draw : Nat) → (id : Byte) → (b : Byte) → Bool

end Sys2Proof
end

