-- ==== Sys2Proof/WellFormed.lean ====
section
/-! DEFINITION. Which terms of the syntax are instructions, and which opcode maps and parameters a machine
can have. -/

namespace Sys2Proof

/-- A format-3 operand has a 12-bit displacement: the bits above it are clear (spec/30_encoding.md R83). Every
combination of the flags n, i, x, b, p is admitted (R93). -/
def MemOp.wellFormed (m : MemOp) : Bool := m.e || decide (m.field.toNat < 4096)

/-- A format-3/4 instruction has a well-formed operand; every format-2 instruction is well-formed, since
each of its two nibbles admits all 16 values (R82). -/
def Instr.wellFormed (i : Instr) : Bool :=
  match i.memOp? with
  | some m => m.wellFormed
  | none => true

/-- No opcode selects two operations (R89). -/
def OpcodeMap.distinctCodes (map : OpcodeMap) : Bool := decide (map.map Prod.fst).Nodup

/-- Every one of the 37 operations has an opcode (R88). -/
def OpcodeMap.complete (map : OpcodeMap) : Bool :=
  Op.all.all (fun o => (map.map Prod.snd).contains o)

/-- An opcode map gives each of the 37 operations an opcode, and no opcode two operations. -/
def OpcodeMap.wellFormed (map : OpcodeMap) : Bool := map.distinctCodes && map.complete

/-- Memory lies behind 24-bit addresses, so at most 2^24 bytes exist (spec/20_memory.md R51). -/
def Params.memoryFits (p : Params) : Bool := decide (p.memSize ≤ 2 ^ 24)

/-- Parameters a machine can have: the memory fits its addresses and the opcode map is well-formed. -/
def Params.wellFormed (p : Params) : Bool := p.memoryFits && p.opcodeMap.wellFormed

end Sys2Proof
end

