-- ==== Sys2Proof/Decode.lean ====
section
/-! DEFINITION. The decoder and the encoder (spec/30_encoding.md R80 to R97): the standard opcode map, field
extraction, decoding of a byte stream, total and rejecting by name, and the bytes of an instruction. -/

namespace Sys2Proof

/-- The default `OPCODE_MAP` of R88: each operation's byte value with bits 1:0 clear, written here as that
value divided by 4 (R85). PRESUMED: the numbers are the spec's general-knowledge passage GK1. -/
def standardOpcodeMap : OpcodeMap :=
  [(0x00#6, .lda), (0x01#6, .ldx), (0x02#6, .ldl), (0x1A#6, .ldb), (0x1B#6, .lds),
   (0x1D#6, .ldt), (0x03#6, .sta), (0x04#6, .stx), (0x05#6, .stl), (0x1E#6, .stb),
   (0x1F#6, .sts), (0x21#6, .stt), (0x14#6, .ldch), (0x15#6, .stch), (0x06#6, .add),
   (0x07#6, .sub), (0x08#6, .mul), (0x09#6, .div), (0x0A#6, .comp), (0x0B#6, .tix),
   (0x0F#6, .j), (0x0C#6, .jeq), (0x0E#6, .jlt), (0x0D#6, .jgt), (0x12#6, .jsub),
   (0x13#6, .rsub), (0x38#6, .td), (0x36#6, .rd), (0x37#6, .wd), (0x24#6, .addr),
   (0x25#6, .subr), (0x26#6, .mulr), (0x27#6, .divr), (0x28#6, .compr), (0x2B#6, .rmo),
   (0x2D#6, .clear), (0x2E#6, .tixr)]

/-- The operation an opcode selects: the first entry of the map with that opcode (R89). -/
def OpcodeMap.opOf : OpcodeMap → OpCode → Option Op
  | [], _ => none
  | (c, o) :: rest, k => if c = k then some o else OpcodeMap.opOf rest k

/-- The opcode of an operation: its first entry in the map. -/
def OpcodeMap.codeOf : OpcodeMap → Op → Option OpCode
  | [], _ => none
  | (c, o) :: rest, k => if o = k then some c else OpcodeMap.codeOf rest k

/-- The instruction of an operation with the operand fields its format uses. -/
def Op.instr (o : Op) (m : MemOp) (r1 r2 : RegNo) : Instr :=
  match o with
  | .lda => .lda m
  | .ldx => .ldx m
  | .ldl => .ldl m
  | .ldb => .ldb m
  | .lds => .lds m
  | .ldt => .ldt m
  | .sta => .sta m
  | .stx => .stx m
  | .stl => .stl m
  | .stb => .stb m
  | .sts => .sts m
  | .stt => .stt m
  | .ldch => .ldch m
  | .stch => .stch m
  | .add => .add m
  | .sub => .sub m
  | .mul => .mul m
  | .div => .div m
  | .comp => .comp m
  | .tix => .tix m
  | .j => .j m
  | .jeq => .jeq m
  | .jlt => .jlt m
  | .jgt => .jgt m
  | .jsub => .jsub m
  | .rsub => .rsub m
  | .td => .td m
  | .rd => .rd m
  | .wd => .wd m
  | .addr => .addr r1 r2
  | .subr => .subr r1 r2
  | .mulr => .mulr r1 r2
  | .divr => .divr r1 r2
  | .compr => .compr r1 r2
  | .rmo => .rmo r1 r2
  | .clear => .clear r1
  | .tixr => .tixr r1

/-- Why a byte stream is no instruction. -/
inductive DecodeReject where
  /-- The stream ends before the instruction does (R86). -/
  | truncated
  /-- The opcode is not in the map; the word is length-decoded as format 3/4 and keeps its operand, which
  the engine still resolves (R91). -/
  | unknownOpcode (op : OpCode) (m : MemOp)
deriving DecidableEq, Repr

/-- The opcode field, bits 7 to 2 of byte 0 (R85). -/
def opcodeOf (b0 : Byte) : OpCode := b0.extractLsb' 2 6

/-- The e flag, bit 4 of byte 1 (R83, R86). -/
def extendedFlag (b1 : Byte) : Bool := b1.getLsbD 4

/-- The first register index, the high nibble of byte 1 (R82). -/
def reg1Of (b1 : Byte) : RegNo := b1.extractLsb' 4 4

/-- The second register index, the low nibble of byte 1 (R82). -/
def reg2Of (b1 : Byte) : RegNo := b1.extractLsb' 0 4

/-- The flags n and i from byte 0 and x, b, p, e from byte 1, with the given field (R83, R84, R90). -/
def flagsOf (b0 b1 : Byte) (field : BitVec 20) : MemOp :=
  { n := b0.getLsbD 1, i := b0.getLsbD 0, x := b1.getLsbD 7, b := b1.getLsbD 6, p := b1.getLsbD 5,
    e := extendedFlag b1, field := field }

/-- disp12: the low nibble of byte 1, then byte 2 (R83), in the low bits of the field. -/
def disp12Of (b1 b2 : Byte) : BitVec 20 := 0#8 ++ b1.extractLsb' 0 4 ++ b2

/-- addr20: the low nibble of byte 1, then bytes 2 and 3 (R84). -/
def addr20Of (b1 b2 b3 : Byte) : BitVec 20 := b1.extractLsb' 0 4 ++ b2 ++ b3

/-- The operand of a format-3/4 word whose first byte is `b0`, with what follows it in the stream (R83,
R84, R86). -/
def decodeMemOp (b0 : Byte) : List Byte → Option (MemOp × List Byte)
  | b1 :: b2 :: rest =>
    if extendedFlag b1 then
      match rest with
      | b3 :: rest => some (flagsOf b0 b1 (addr20Of b1 b2 b3), rest)
      | [] => none
    else some (flagsOf b0 b1 (disp12Of b1 b2), rest)
  | _ => none

/-- An operand for the operations that have none; no instruction built with it shows it. -/
def MemOp.unused : MemOp :=
  { n := false, i := false, x := false, b := false, p := false, e := false, field := 0#20 }

/-- Decode one instruction from a byte stream under an opcode map, with what follows it (R86 to R92). -/
def decodeWith (map : OpcodeMap) : List Byte → Except DecodeReject (Instr × List Byte)
  | [] => .error .truncated
  | b0 :: rest =>
    match map.opOf (opcodeOf b0) with
    | some o =>
      if o.isFormat2 then
        match rest with
        | b1 :: rest => .ok (o.instr MemOp.unused (reg1Of b1) (reg2Of b1), rest)
        | [] => .error .truncated
      else
        match decodeMemOp b0 rest with
        | some (m, rest) => .ok (o.instr m 0#4 0#4, rest)
        | none => .error .truncated
    | none =>
      match decodeMemOp b0 rest with
      | some (m, _) => .error (.unknownOpcode (opcodeOf b0) m)
      | none => .error .truncated

/-- Decode under the default opcode map. -/
def decode (bytes : List Byte) : Except DecodeReject (Instr × List Byte) :=
  decodeWith standardOpcodeMap bytes

/-- The length the fetch reads for an instruction whose first byte is `b0` and whose second byte, where one
is there, is `b1`: 2 for a format-2 opcode, else 4 or 3 by the e flag; none where byte 1 is needed and absent
(R86). -/
def instrLength (map : OpcodeMap) (b0 : Byte) (b1 : Option Byte) : Option Nat :=
  match (map.opOf (opcodeOf b0)).map Op.isFormat2 with
  | some true => some 2
  | _ => b1.map (fun c => if extendedFlag c then 4 else 3)

/-- Byte 0: the opcode, then two bits (R82, R83). -/
def byte0Of (code : OpCode) (hi lo : Bool) : Byte := code ++ BitVec.ofBool hi ++ BitVec.ofBool lo

/-- Byte 1 of a format-3/4 instruction: x, b, p, e and the top nibble of its field (R83, R84). -/
def byte1Of (m : MemOp) (top : BitVec 4) : Byte :=
  BitVec.ofBool m.x ++ BitVec.ofBool m.b ++ BitVec.ofBool m.p ++ BitVec.ofBool m.e ++ top

/-- The bytes of a format-3/4 instruction (R83, R84). -/
def encodeMem (code : OpCode) (m : MemOp) : List Byte :=
  if m.e then
    [byte0Of code m.n m.i, byte1Of m (m.field.extractLsb' 16 4), m.field.extractLsb' 8 8,
      m.field.extractLsb' 0 8]
  else
    [byte0Of code m.n m.i, byte1Of m (m.field.extractLsb' 8 4), m.field.extractLsb' 0 8]

/-- The bytes of a format-2 instruction, with the unexamined bits 1:0 of byte 0 clear (R82, R92). -/
def encodeReg (code : OpCode) (r1 r2 : RegNo) : List Byte :=
  [byte0Of code false false, r1 ++ r2]

/-- The bytes of an instruction under an opcode map; none when the map lacks its operation. -/
def encodeWith (map : OpcodeMap) (i : Instr) : Option (List Byte) :=
  (map.codeOf i.op).map (fun code =>
    match i.memOp? with
    | some m => encodeMem code m
    | none => encodeReg code i.regPair.1 i.regPair.2)

/-- The bytes of an instruction under the default opcode map. -/
def encode (i : Instr) : List Byte := (encodeWith standardOpcodeMap i).getD []

/-- The `n` low bytes of `w`, most significant first. -/
def bigEndianBytes : Nat → Nat → List Byte
  | 0, _ => []
  | n + 1, w => bigEndianBytes n (w / 256) ++ [BitVec.ofNat 8 w]

/-- The four bytes of an instruction whose table bits are `w`: the table numbers a row's bits as one
big-endian number (R9), so byte 0 is its top byte; bytes past the table's are 0. -/
def tableBytes (nbits w : Nat) : List Byte :=
  bigEndianBytes (nbits / 8) w ++ List.replicate (4 - nbits / 8) 0#8

/-- The instruction the decoder reads from a row's bits. -/
def decodeTableWord (nbits w : Nat) : Option Instr :=
  match decode (tableBytes nbits w) with
  | .ok (i, _) => some i
  | .error _ => none

end Sys2Proof
end

