-- ==== Sys2Proof/Machine/Defaults.lean ====
section
/-! DEFINITION. The parameter values this hardware takes (spec/00_scope.md R7). -/

namespace Sys2Proof

/-- The defaults of R7: 65536 bytes of memory, loaded at 0, a ceiling of 100000 steps, the standard opcode
map, and the default of each policy. -/
def Params.default : Params :=
  { memSize := 65536
    loadBase := 0#24
    runCeiling := 100000
    opcodeMap := standardOpcodeMap
    reg67 := .storage
    immRel := .field
    rsub := .jumpL
    boundsHalt := .rsubNormal }

end Sys2Proof
end

