-- ==== Sys2Proof/Machine/State.lean ====
section
/-! DEFINITION. The machine's state as plain data (spec/10_state.md), the reasons a step stops
(spec/60_exceptions.md R300, R301, R310), and the state after reset (R34, R330). -/

namespace Sys2Proof.Machine

/-- The ten integer slots of the register file, 24 bits each (R20, R21). `r6` and `r7` are the unnamed
slots 6 and 7, `pc` is slot 8 and `sw` is slot 9. -/
structure Regs where
  a : Word
  x : Word
  l : Word
  b : Word
  s : Word
  t : Word
  r6 : Word
  r7 : Word
  pc : Word
  sw : Word
deriving DecidableEq, Repr

/-- Memory: the bytes that differ from what an unlisted address reads as, addresses strictly rising. -/
abbrev Memory := List Host.Cell

/-- What an address that memory does not list reads as: every byte is 0x00 after reset (R34). -/
def Memory.unlisted : Byte := 0#8

/-- The canonical form: addresses strictly rising, no entry equal to what an unlisted address reads as. -/
abbrev Memory.wf (m : Memory) : Prop :=
  (m.map Prod.fst).Pairwise (· < ·) ∧ ∀ c ∈ m, c.2 ≠ Memory.unlisted

/-- The metadata the loader publishes (R31). -/
structure LoadedProgram where
  progName : Text
  headerAddr : Word
  totalLength : Word
  loadBase : Word
  entry : Word
deriving DecidableEq, Repr

/-- The error kinds (R301). Each is reported precisely: the failing instruction changes no register, no
memory byte and no device (R304). All are SAFE: the spec names them. -/
inductive ErrorKind where
  /-- `E_PC_BOUNDS`: raised by the fetch when the PC is outside memory. -/
  | pcBounds
  /-- `E_FETCH_SHORT`: raised by the fetch when the instruction runs past the end of memory. -/
  | fetchShort
  /-- `E_INDIRECT_BOUNDS`: raised by the resolver when the 3-byte pointer is outside memory. -/
  | indirectBounds
  /-- `E_UNKNOWN_OPCODE`: raised by the dispatch on an opcode outside the 37. -/
  | unknownOpcode
  /-- `E_IMMEDIATE_NOT_ALLOWED`: raised by stores, J, JEQ, JLT, JGT and JSUB on immediate addressing. -/
  | immediateNotAllowed
  /-- `E_MEM_BOUNDS`: raised by a handler whose operand lies outside memory. -/
  | memBounds
  /-- `E_DIV_ZERO`: raised by DIV and DIVR on a zero divisor. -/
  | divZero
  /-- `E_PC_RANGE`: raised by the controller when the PC is outside the program range. -/
  | pcRange
deriving DecidableEq, Repr

/-- What a call of step or run that stops returns (R310, R312). -/
inductive StopOutcome where
  /-- `NOT_READY`: step was called while the controller is not ready. -/
  | notReady
  /-- `NORMAL_HALT` (R303). -/
  | normalHalt
  /-- `ERROR_HALT` with its kind (R301). -/
  | errorHalt (k : ErrorKind)
  /-- `CEILING`: run made `RUN_CEILING` steps; neither a normal nor an error halt (R312). -/
  | ceiling
deriving DecidableEq, Repr

/-- What an engine halt records: the instruction's address, the bytes fetched (none when the fetch failed)
and the effective address when the resolver produced one (R302). -/
structure Diag where
  addr : Word
  bytes : List Byte
  ea : Option Word
deriving DecidableEq, Repr

/-- One entry of the execution log (R314). DESIGN CHOICE: the entries' content, which the spec does not
fix beyond R302 and R311. -/
inductive LogEntry where
  /-- One committed instruction: its address, itself and its effective address (R311). -/
  | executed (addr : Word) (i : Instr) (ea : Option Word)
  /-- One engine halt. -/
  | engineHalt (o : StopOutcome) (d : Diag)
  /-- One bounds halt, with the out-of-range PC. -/
  | boundsHalt (o : StopOutcome) (pc : Word)
deriving DecidableEq, Repr

/-- The host's side of the devices (R240 to R243). `output` is the output history the spec names; the other
fields are the MODEL's own and carry the host's answers as data: what is known of device files, the answers
the host has lined up, and the number of the next draw. -/
structure Devices where
  /-- Device ids whose file is known to exist or known not to. -/
  known : List (Byte × Bool)
  /-- The host's next answers to `Dev.test` of an existing file. -/
  tests : List Bool
  /-- The host's next answers to `Dev.read`. -/
  reads : List (Option Byte)
  /-- Whether the host's next writes succeed. -/
  writes : List Bool
  /-- How many device operations were made; indexes the free values of Sys2Proof/Config.lean. -/
  draws : Nat
  /-- The bytes written, each with its device id, oldest first. -/
  output : List (Byte × Byte)
deriving DecidableEq, Repr

/-- The whole state (R20 to R32). -/
structure State where
  regs : Regs
  /-- The floating register F: the 64 bits of a binary64 value (R25). No instruction reaches it. -/
  f : BitVec 64
  mem : Memory
  prog : LoadedProgram
  /-- Set by initialization, cleared by a halt (R32). -/
  ready : Bool
  /-- The last committed instruction was RSUB (R32). -/
  retFlag : Bool
  /-- The step calls of the current run (R32). -/
  steps : Nat
  /-- The execution log, oldest entry first (R32, R314). -/
  log : List LogEntry
  dev : Devices
  /-- The parameters of R7: fixed for a machine; no step changes them. -/
  params : Params
deriving DecidableEq, Repr

/-- Why a step, or an instruction, answers no next state. The engine's two terminal results (R300) carry no
state, since the failing instruction changes nothing; the controller's stop carries the state it leaves. -/
inductive Fault where
  /-- The engine's ErrorHalt: raised by a meaning (resolver or handler). SAFE: the spec's own outcome. -/
  | errorHalt (k : ErrorKind)
  /-- The engine's NormalHalt: raised by RSUB under `RSUB_POLICY = HALT`. SAFE: the spec's own outcome. -/
  | normalHalt
  /-- The controller's Stop, raised by step: what step returns and the state it leaves (R310). SAFE: the
  spec's own outcome, with the spec's own state. -/
  | stopped (o : StopOutcome) (after : State)
deriving DecidableEq, Repr

/-- Why an instruction has no meaning. -/
inductive Refusal where
  /-- The instruction is not modelled yet: raised by no arm of this model. SAFE. -/
  | notModelled (mnemonic : String)
deriving DecidableEq, Repr

/-- The register file after reset: every slot is 0x000000, so SW reads EQ (R34, R330). -/
def Regs.reset : Regs :=
  { a := 0#24, x := 0#24, l := 0#24, b := 0#24, s := 0#24, t := 0#24, r6 := 0#24, r7 := 0#24,
    pc := 0#24, sw := 0#24 }

/-- The metadata after reset (R34, R330). -/
def LoadedProgram.reset (p : Params) : LoadedProgram :=
  { progName := [], headerAddr := 0#24, totalLength := 0#24, loadBase := p.loadBase, entry := p.loadBase }

/-- A host that has lined up no answer and of whose device files nothing is known, with no output: the device
side right after reset. R34 and R330 give none of it a value: that the output history starts empty is a DESIGN
CHOICE (notes/assumptions/32.md), and so are the values of the model's own fields (notes/assumptions/10.md). -/
def Devices.unknown : Devices :=
  { known := [], tests := [], reads := [], writes := [], draws := 0, output := [] }

/-- The state after reset under given parameters (R34, R330). -/
def State.resetWith (p : Params) : State :=
  { regs := Regs.reset
    f := 0#64
    mem := []
    prog := LoadedProgram.reset p
    ready := false
    retFlag := false
    steps := 0
    log := []
    dev := Devices.unknown
    params := p }

/-- The machine right after reset, under the default parameters (R7, R34, R330). -/
def State.reset : State := State.resetWith Params.default

end Sys2Proof.Machine
end

