-- ==== Sys2Proof/Machine/Ops.lean ====
section
/-! DEFINITION. The named operations over memory, the register file, the PC and the controller's flags: the
memory primitives of spec/20_memory.md, the register access of spec/10_state.md R22 and R23, and the ONE
operation by which the machine halts (spec/60_exceptions.md R310, R316). -/

namespace Sys2Proof.Machine

/-! ### Bytes of memory -/

/-- One byte of memory. -/
def Memory.read : Memory → Nat → Byte
  | [], _ => Memory.unlisted
  | (k, v) :: rest, a => if a = k then v else Memory.read rest a

/-- Prepend a byte unless it is what an unlisted address reads as. -/
def Memory.entry (a : Nat) (v : Byte) (rest : Memory) : Memory :=
  if v = Memory.unlisted then rest else (a, v) :: rest

/-- Write one byte, keeping the canonical form. -/
def Memory.write : Memory → Nat → Byte → Memory
  | [], a, v => Memory.entry a v []
  | (k, w) :: rest, a, v =>
    if a < k then Memory.entry a v ((k, w) :: rest)
    else if a = k then Memory.entry a v rest
    else (k, w) :: Memory.write rest a v

/-- The bytes from an address upward. -/
def Memory.readList (m : Memory) (a : Nat) : Nat → List Byte
  | 0 => []
  | n + 1 => m.read a :: Memory.readList m (a + 1) n

/-- Write bytes from an address upward, the first at the lowest address (R271). -/
def Memory.writeList (m : Memory) (a : Nat) : List Byte → Memory
  | [] => m
  | v :: vs => Memory.writeList (m.write a v) (a + 1) vs

/-- The 3-byte big-endian value at an address, `MemRead(a, 3)` (R53). -/
def Memory.readWord (m : Memory) (a : Nat) : Word := m.read a ++ m.read (a + 1) ++ m.read (a + 2)

/-- The bytes of a word, most significant first, `intToBytes` (R55). -/
def wordBytes (v : Word) : List Byte := [v.extractLsb' 16 8, v.extractLsb' 8 8, v.extractLsb' 0 8]

/-- `MemWrite(a, 3, v)`: big-endian (R55). -/
def Memory.writeWord (m : Memory) (a : Nat) (v : Word) : Memory := m.writeList a (wordBytes v)

/-- `MemReadS(a, 1)` (R54). -/
def Memory.readSigned1 (m : Memory) (a : Nat) : Int := (m.read a).toInt

/-- `MemReadS(a, 3)`: bit 7 of the first byte is the sign (R54). -/
def Memory.readSigned3 (m : Memory) (a : Nat) : Int := (m.readWord a).toInt

/-- `trunc_24` of an exact integer (R10). -/
def trunc24 (v : Int) : Word := BitVec.ofInt 24 v

/-- `sint24` of a 24-bit pattern (R10). -/
def sint24 (v : Word) : Int := v.toInt

/-! ### Bounds -/

/-- `InBounds(a, n)` against a memory of `memSize` bytes: no wrap-around and no partial access (R52). -/
abbrev inBounds (memSize a n : Nat) : Prop := a + n ≤ memSize

/-- `readBytes` of the State Store: empty when out of bounds (R56). -/
def readBytes (memSize : Nat) (m : Memory) (a n : Nat) : List Byte :=
  if inBounds memSize a n then m.readList a n else []

/-- `writeBytes` of the State Store: writes nothing when out of bounds (R56). -/
def writeBytes (memSize : Nat) (m : Memory) (a : Nat) (bs : List Byte) : Memory :=
  if inBounds memSize a bs.length then m.writeList a bs else m

/-! ### Registers -/

/-- Register numbers of the named registers (R21). -/
def RegNo.A : RegNo := 0#4
def RegNo.X : RegNo := 1#4
def RegNo.L : RegNo := 2#4
def RegNo.B : RegNo := 3#4
def RegNo.S : RegNo := 4#4
def RegNo.T : RegNo := 5#4
def RegNo.PC : RegNo := 8#4
def RegNo.SW : RegNo := 9#4

/-- `x[k]`: slots 6 and 7 read 0 under `REG67_POLICY = ZERO`, and indices 10 to 15 read 0 (R22). -/
def Regs.read (p : Reg67Policy) (r : Regs) (k : RegNo) : Word :=
  match k.toNat with
  | 0 => r.a
  | 1 => r.x
  | 2 => r.l
  | 3 => r.b
  | 4 => r.s
  | 5 => r.t
  | 6 => match p with
    | .storage => r.r6
    | .zero => 0#24
  | 7 => match p with
    | .storage => r.r7
    | .zero => 0#24
  | 8 => r.pc
  | 9 => r.sw
  | _ => 0#24

/-- `x[k] <- v`: slots 6 and 7 ignore writes under `REG67_POLICY = ZERO`, and so do indices 10 to 15
(R23). -/
def Regs.write (p : Reg67Policy) (r : Regs) (k : RegNo) (v : Word) : Regs :=
  match k.toNat with
  | 0 => { r with a := v }
  | 1 => { r with x := v }
  | 2 => { r with l := v }
  | 3 => { r with b := v }
  | 4 => { r with s := v }
  | 5 => { r with t := v }
  | 6 => match p with
    | .storage => { r with r6 := v }
    | .zero => r
  | 7 => match p with
    | .storage => { r with r7 := v }
    | .zero => r
  | 8 => { r with pc := v }
  | 9 => { r with sw := v }
  | _ => r

/-- `x[k]` in a state (R22). -/
def State.readReg (s : State) (k : RegNo) : Word := s.regs.read s.params.reg67 k

/-- `x[k] <- v` in a state (R23). -/
def State.writeReg (s : State) (k : RegNo) (v : Word) : State :=
  { s with regs := s.regs.write s.params.reg67 k v }

/-- The next-PC commit (R26, R311): it follows, and so supersedes, a handler's own write to slot 8. -/
def State.setPc (s : State) (pc : Word) : State := { s with regs := { s.regs with pc := pc } }

/-- A memory write. -/
def State.setMem (s : State) (m : Memory) : State := { s with mem := m }

/-- A device operation's effect on the host side. -/
def State.setDev (s : State) (d : Devices) : State := { s with dev := d }

/-- `PC + len`, reduced modulo 2^24 (R27). -/
def State.pcAfter (s : State) (len : Nat) : Word := trunc24 (s.regs.pc.toNat + len)

/-- `InBounds(a, n)` in a state (R52). -/
abbrev State.InBounds (s : State) (a n : Nat) : Prop := inBounds s.params.memSize a n

/-! ### Halting and committing -/

/-- THE HALT. The block has no trap (R316): a halt clears `ready`, appends one log entry, and changes nothing
else; control goes back to the host, and only `init` makes the controller ready again (R310, R313). -/
def State.halt (s : State) (e : LogEntry) : State := { s with ready := false, log := s.log ++ [e] }

/-- The controller's part of a commit: `ret_flag` and the log entry (R311). `addr` is the address the
instruction was fetched at. -/
def State.commit (s : State) (addr : Word) (i : Instr) (ea : Option Word) : State :=
  { s with retFlag := decide (i.op = .rsub), log := s.log ++ [.executed addr i ea] }

/-- The answer of a meaning: the staged result, or the error halt that discards it (R13, R304). -/
def answer : Except ErrorKind State → Host.Outcome State Fault Refusal
  | .ok s => .next s
  | .error k => .fault (.errorHalt k)

end Sys2Proof.Machine
end

