-- ==== Sys2Proof/Machine/Operands.lean ====
section
/-! DEFINITION. The addressing-mode resolver and the operand helpers every format-3/4 handler uses
(spec/40_addressing.md). -/

namespace Sys2Proof

/-- Whether the format-3 field is a signed displacement: b or p set, or n = i = 0 (R90, R113). -/
def MemOp.signedField (m : MemOp) : Bool := m.b || m.p || (!m.n && !m.i)

/-- The field as an exact integer: disp12, sign-extended where it is a signed displacement; addr20, never
sign-extended (R90, R113). -/
def MemOp.fieldValue (m : MemOp) : Int :=
  if m.e then m.field.toNat
  else
    let d := m.field.extractLsb' 0 12
    if m.signedField then d.toInt else d.toNat

/-- Immediate addressing: i = 1, n = 0 (R112). -/
def MemOp.isImmediate (m : MemOp) : Bool := m.i && !m.n

/-- Indirect addressing: n = 1, i = 0 (R112). -/
def MemOp.isIndirect (m : MemOp) : Bool := m.n && !m.i

end Sys2Proof

namespace Sys2Proof.Machine

/-- DecodedAddressing of a format-3/4 instruction (R111): an immediate operand or an effective address. -/
inductive Addressing where
  | imm (v : Word)
  | mem (ea : Word)
deriving DecidableEq, Repr

/-- The effective address the engine reports: none for an immediate (R130). -/
def Addressing.ea : Addressing → Option Word
  | .imm _ => none
  | .mem ea => some ea

/-- `BaseTarget`: PC-relative, base-relative, or direct, the last also when b = p = 1 (R112, R116 to R119). -/
def baseTarget (m : MemOp) (s : State) : Int :=
  if m.p && !m.b then s.regs.pc.toNat + m.len + m.fieldValue
  else if m.b && !m.p then s.regs.b.toNat + m.fieldValue
  else m.fieldValue

/-- The target before indirection: the base target, plus X when x = 1, masked to 24 bits (R112, R120,
R121). -/
def targetAddress (m : MemOp) (s : State) : Word :=
  trunc24 (baseTarget m s + (if m.x then (s.regs.x.toNat : Int) else 0))

/-- The operand of an immediate: the field, or under `IMM_REL_POLICY = TEXTBOOK` the value of the target
address formula (R114, R115). -/
def immediateValue (m : MemOp) (s : State) : Word :=
  match s.params.immRel with
  | .field => trunc24 m.fieldValue
  | .textbook => targetAddress m s

/-- The resolver (R112). It writes no state and reads memory only for the one pointer of an indirect
operand (R111, R122). -/
def resolve (m : MemOp) (s : State) : Except ErrorKind Addressing :=
  if m.isImmediate then .ok (.imm (immediateValue m s))
  else if m.isIndirect then
    if s.InBounds (targetAddress m s).toNat 3 then
      .ok (.mem (s.mem.readWord (targetAddress m s).toNat))
    else .error .indirectBounds
  else .ok (.mem (targetAddress m s))

/-- `Operand3` (R126): the word read is sign-extended and masked to 24 bits. -/
def operand3 (s : State) : Addressing → Except ErrorKind Word
  | .imm v => .ok v
  | .mem ea =>
    if s.InBounds ea.toNat 3 then .ok (trunc24 (s.mem.readSigned3 ea.toNat)) else .error .memBounds

/-- `Operand1` (R127): of an immediate, the low byte. -/
def operand1 (s : State) : Addressing → Except ErrorKind Byte
  | .imm v => .ok (v.extractLsb' 0 8)
  | .mem ea => if s.InBounds ea.toNat 1 then .ok (s.mem.read ea.toNat) else .error .memBounds

/-- `StoreTarget` (R128): immediate addressing is rejected before any bounds check (R155). -/
def storeTarget (s : State) (n : Nat) : Addressing → Except ErrorKind Nat
  | .imm _ => .error .immediateNotAllowed
  | .mem ea => if s.InBounds ea.toNat n then .ok ea.toNat else .error .memBounds

/-- `JumpTarget` (R129): no bounds check here. -/
def jumpTarget : Addressing → Except ErrorKind Word
  | .imm _ => .error .immediateNotAllowed
  | .mem ea => .ok ea

/-- The source word of a format-3/4 instruction: resolved, then read (R110, R126). -/
def sourceWord (m : MemOp) (s : State) : Except ErrorKind Word := resolve m s >>= operand3 s

/-- The source byte of a format-3/4 instruction (R110, R127). -/
def sourceByte (m : MemOp) (s : State) : Except ErrorKind Byte := resolve m s >>= operand1 s

/-- The address an `n`-byte store goes to (R110, R128). -/
def storeAddress (m : MemOp) (n : Nat) (s : State) : Except ErrorKind Nat :=
  resolve m s >>= storeTarget s n

/-- The target of a jump (R110, R129). -/
def jumpAddress (m : MemOp) (s : State) : Except ErrorKind Word := resolve m s >>= jumpTarget

/-- The effective address an instruction reports: none for a register form, an immediate, or a failed
resolution (R130, R302). -/
def reportedEa (i : Instr) (s : State) : Option Word :=
  match i.memOp? with
  | none => none
  | some m =>
    match resolve m s with
    | .ok da => da.ea
    | .error _ => none

end Sys2Proof.Machine
end

