-- ==== Sys2Proof/Machine/Arithmetic.lean ====
section
/-! DEFINITION. The arithmetic and register-register instructions (spec/42_arithmetic.md): exact signed
arithmetic, reduced modulo 2^24 (R170). -/

namespace Sys2Proof.Machine

/-- `trunc_24(sint24(a) + sint24(v))` (R170, R171). -/
def addWords (a v : Word) : Word := trunc24 (sint24 a + sint24 v)

/-- `trunc_24(sint24(a) - sint24(v))` (R170, R172). -/
def subWords (a v : Word) : Word := trunc24 (sint24 a - sint24 v)

/-- `trunc_24(sint24(a) * sint24(v))` (R170, R173). -/
def mulWords (a v : Word) : Word := trunc24 (sint24 a * sint24 v)

/-- Division truncating toward zero; a zero divisor is an error halt (R170, R174). -/
def divWords (a v : Word) : Except ErrorKind Word :=
  if sint24 v = 0 then .error .divZero else .ok (trunc24 (Int.tdiv (sint24 a) (sint24 v)))

/-- `A <- f(A, Operand3(da))`, then the PC advances; the operand is read before `f` is applied (R171 to R174,
R305). -/
def accumulate (f : Word → Word → Except ErrorKind Word) (m : MemOp) (s : State) : Except ErrorKind State := do
  let v ← sourceWord m s
  let w ← f (s.readReg RegNo.A) v
  pure ((s.writeReg RegNo.A w).setPc (s.pcAfter m.len))

/-- `x[r2] <- f(x[r2], x[r1])`, then the next-PC commit (R175). -/
def registerOp (f : Word → Word → Except ErrorKind Word) (r1 r2 : RegNo) (s : State) :
    Except ErrorKind State := do
  let w ← f (s.readReg r2) (s.readReg r1)
  pure ((s.writeReg r2 w).setPc (s.pcAfter 2))

/-- ADD (R171). -/
def execAdd (m : MemOp) (s : State) : Host.Outcome State Fault Refusal :=
  answer (accumulate (fun a v => .ok (addWords a v)) m s)

/-- SUB (R172). -/
def execSub (m : MemOp) (s : State) : Host.Outcome State Fault Refusal :=
  answer (accumulate (fun a v => .ok (subWords a v)) m s)

/-- MUL (R173). -/
def execMul (m : MemOp) (s : State) : Host.Outcome State Fault Refusal :=
  answer (accumulate (fun a v => .ok (mulWords a v)) m s)

/-- DIV (R174). -/
def execDiv (m : MemOp) (s : State) : Host.Outcome State Fault Refusal :=
  answer (accumulate divWords m s)

/-- ADDR r1,r2 (R176). -/
def execAddr (r1 r2 : RegNo) (s : State) : Host.Outcome State Fault Refusal :=
  answer (registerOp (fun a v => .ok (addWords a v)) r1 r2 s)

/-- SUBR r1,r2 (R177). -/
def execSubr (r1 r2 : RegNo) (s : State) : Host.Outcome State Fault Refusal :=
  answer (registerOp (fun a v => .ok (subWords a v)) r1 r2 s)

/-- MULR r1,r2 (R178). -/
def execMulr (r1 r2 : RegNo) (s : State) : Host.Outcome State Fault Refusal :=
  answer (registerOp (fun a v => .ok (mulWords a v)) r1 r2 s)

/-- DIVR r1,r2 (R179). -/
def execDivr (r1 r2 : RegNo) (s : State) : Host.Outcome State Fault Refusal :=
  answer (registerOp divWords r1 r2 s)

/-- RMO r1,r2: `x[r2] <- x[r1]` (R180). -/
def execRmo (r1 r2 : RegNo) (s : State) : Host.Outcome State Fault Refusal :=
  answer (registerOp (fun _ v => .ok v) r1 r2 s)

/-- CLEAR r1: `x[r1] <- 0` (R181). -/
def execClear (r1 : RegNo) (s : State) : Host.Outcome State Fault Refusal :=
  .next ((s.writeReg r1 0#24).setPc (s.pcAfter 2))

end Sys2Proof.Machine
end

