-- ==== Sys2Proof/Machine/Flags.lean ====
section
/-! DEFINITION. The condition-code generator (spec/43_compare.md R200) and the condition tests
(spec/44_control.md R221). The core has no other flag: no carry, overflow, zero or sign (spec/42_arithmetic.md
R170). -/

namespace Sys2Proof.Machine

/-- The SW value of LT; for TD, device ready (spec/10_state.md R28). -/
def ccLT : Word := 0x000001#24

/-- The SW value of EQ; for TD, device not ready (R28). -/
def ccEQ : Word := 0x000000#24

/-- The SW value of GT (R28). -/
def ccGT : Word := 0x000002#24

/-- `CC(a, b)` of two signed values (R200). -/
def cc (a b : Int) : Word := if a < b then ccLT else if a = b then ccEQ else ccGT

/-- `SW <- code`: replaces all 24 bits (R28, R200). -/
def State.setSw (s : State) (code : Word) : State := s.writeReg RegNo.SW code

/-- TD's code: LT when the device is ready, else EQ (spec/45_device_io.md R244). -/
def ccReady (ready : Bool) : Word := if ready then ccLT else ccEQ

end Sys2Proof.Machine
end

