-- ==== Sys2Proof/Machine/Compare.lean ====
section
/-! DEFINITION. The compare instructions (spec/43_compare.md). Both sides are read as signed 24-bit values
(R201). -/

namespace Sys2Proof.Machine

/-- `trunc_24(X + 1)` (R204, R205). -/
def incremented (x : Word) : Word := trunc24 (x.toNat + 1)

/-- COMP: SW takes the code of A against `Operand3(da)` (R202). -/
def execComp (m : MemOp) (s : State) : Host.Outcome State Fault Refusal :=
  answer ((sourceWord m s).map (fun v =>
    (s.setSw (cc (sint24 (s.readReg RegNo.A)) (sint24 v))).setPc (s.pcAfter m.len)))

/-- COMPR r1,r2: SW takes the code of x[r1] against x[r2] (R203). -/
def execCompr (r1 r2 : RegNo) (s : State) : Host.Outcome State Fault Refusal :=
  .next ((s.setSw (cc (sint24 (s.readReg r1)) (sint24 (s.readReg r2)))).setPc (s.pcAfter 2))

/-- TIX: X is incremented and compared; the operand was resolved with the old X (R204). -/
def execTix (m : MemOp) (s : State) : Host.Outcome State Fault Refusal :=
  answer ((sourceWord m s).map (fun v =>
    let x' := incremented (s.readReg RegNo.X)
    ((s.setSw (cc (sint24 x') (sint24 v))).writeReg RegNo.X x').setPc (s.pcAfter m.len)))

/-- TIXR r1: X is incremented and compared with x[r1], which for r1 = 1 is the incremented X (R205). -/
def execTixr (r1 : RegNo) (s : State) : Host.Outcome State Fault Refusal :=
  let x' := incremented (s.readReg RegNo.X)
  let w := if r1 = RegNo.X then x' else s.readReg r1
  .next (((s.setSw (cc (sint24 x') (sint24 w))).writeReg RegNo.X x').setPc (s.pcAfter 2))

end Sys2Proof.Machine
end

