-- ==== Sys2Proof/Machine/Control.lean ====
section
/-! DEFINITION. The control-transfer instructions (spec/44_control.md). -/

namespace Sys2Proof.Machine

/-- A conditional jump: the target is resolved, and immediate addressing rejected, whether or not the whole of
SW equals the code (R221). -/
def jumpIf (code : Word) (m : MemOp) (s : State) : Except ErrorKind State :=
  (jumpAddress m s).map (fun t =>
    s.setPc (if s.readReg RegNo.SW = code then t else s.pcAfter m.len))

/-- J (R220). -/
def execJ (m : MemOp) (s : State) : Host.Outcome State Fault Refusal :=
  answer ((jumpAddress m s).map (fun t => s.setPc t))

/-- JEQ (R222). -/
def execJeq (m : MemOp) (s : State) : Host.Outcome State Fault Refusal :=
  answer (jumpIf ccEQ m s)

/-- JLT (R223). -/
def execJlt (m : MemOp) (s : State) : Host.Outcome State Fault Refusal :=
  answer (jumpIf ccLT m s)

/-- JGT (R224). -/
def execJgt (m : MemOp) (s : State) : Host.Outcome State Fault Refusal :=
  answer (jumpIf ccGT m s)

/-- JSUB: L takes the address of the next instruction (R225). -/
def execJsub (m : MemOp) (s : State) : Host.Outcome State Fault Refusal :=
  answer ((jumpAddress m s).map (fun t => (s.writeReg RegNo.L (s.pcAfter m.len)).setPc t))

/-- RSUB: the operand is resolved and then ignored; the jump to L, or the normal halt of
`RSUB_POLICY = HALT` (R226). -/
def execRsub (m : MemOp) (s : State) : Host.Outcome State Fault Refusal :=
  match resolve m s with
  | .error k => .fault (.errorHalt k)
  | .ok _ =>
    match s.params.rsub with
    | .jumpL => .next (s.setPc (s.readReg RegNo.L))
    | .halt => .fault .normalHalt

end Sys2Proof.Machine
end

