-- ==== Sys2Proof/Machine/Device.lean ====
section
/-! DEFINITION. The device oracle `Dev` (spec/45_device_io.md R240 to R243): each answer is the host's next
lined-up answer or else a free value, constrained only by R242 and R243. Every operation is one draw, so no
two operations share a free value. -/

namespace Sys2Proof.Machine

/-- The console ids 0x00, 0x01 and 0x02 (R241, R242). -/
def isConsole (id : Byte) : Bool := decide (id.toNat ≤ 2)

/-- What is known of the file a device id names. -/
def knownFile : List (Byte × Bool) → Byte → Option Bool
  | [], _ => none
  | (k, v) :: rest, id => if id = k then some v else knownFile rest id

/-- Whether the named file exists; a free value where nothing is known (R243). -/
def Devices.fileExists (d : Devices) (id : Byte) : Bool :=
  match knownFile d.known id with
  | some v => v
  | none => Config.fileExists d.draws id

/-- A device that can answer: the console, or a file that exists. -/
def Devices.reachable (d : Devices) (id : Byte) : Bool := isConsole id || d.fileExists id

/-- `Dev.test(id)`: true for the console (R242), false for a missing file (R243), else the host's answer. -/
def Devices.testAnswer (d : Devices) (id : Byte) : Bool :=
  isConsole id || (d.fileExists id && (d.tests.head?).getD (Config.devTest d.draws id))

/-- The host side after `Dev.test(id)`: an answer lined up for an existing file is used up. -/
def Devices.afterTest (d : Devices) (id : Byte) : Devices :=
  { d with
    draws := d.draws + 1
    tests := if !isConsole id && d.fileExists id then d.tests.tail else d.tests }

/-- `Dev.read(id)`: none for a missing file (R243), else the host's answer, itself none at end of stream or
on failure (R240). -/
def Devices.readAnswer (d : Devices) (id : Byte) : Option Byte :=
  if d.reachable id then (d.reads.head?).getD (Config.devRead d.draws id) else none

/-- The host side after `Dev.read(id)`. -/
def Devices.afterRead (d : Devices) (id : Byte) : Devices :=
  { d with
    draws := d.draws + 1
    reads := if d.reachable id then d.reads.tail else d.reads }

/-- Whether `Dev.write(id, b)` succeeds: the host's answer. -/
def Devices.writeOk (d : Devices) (id b : Byte) : Bool :=
  (d.writes.head?).getD (Config.devWrite d.draws id b)

/-- Record that a device file exists. -/
def noteFile (known : List (Byte × Bool)) (id : Byte) : List (Byte × Bool) :=
  if knownFile known id = some true then known else (id, true) :: known

/-- The host side after `Dev.write(id, b)`: a write that succeeds joins the output history (R240) and creates
the file it names (R243); one that fails changes neither (R246). -/
def Devices.afterWrite (d : Devices) (id b : Byte) : Devices :=
  { d with
    draws := d.draws + 1
    writes := d.writes.tail
    output := if d.writeOk id b then d.output ++ [(id, b)] else d.output
    known := if d.writeOk id b && !isConsole id then noteFile d.known id else d.known }

end Sys2Proof.Machine
end

