-- ==== Sys2Proof/Machine/LoadStore.lean ====
section
/-! DEFINITION. The load and store instructions (spec/41_load_store.md). -/

namespace Sys2Proof.Machine

/-- A word load: `x[k] <- Operand3(da)`, then the PC advances (R140). -/
def loadWord (k : RegNo) (m : MemOp) (s : State) : Except ErrorKind State :=
  (sourceWord m s).map (fun v => (s.writeReg k v).setPc (s.pcAfter m.len))

/-- A word store: `MemWrite(StoreTarget(da, 3), 3, x[k])`, then the PC advances (R140). -/
def storeWord (k : RegNo) (m : MemOp) (s : State) : Except ErrorKind State :=
  (storeAddress m 3 s).map (fun ea =>
    (s.setMem (s.mem.writeWord ea (s.readReg k))).setPc (s.pcAfter m.len))

/-- `A[23:8] ++ c` (R153, R245). -/
def withLowByte (a : Word) (c : Byte) : Word := a.extractLsb' 8 16 ++ c

/-- `A[7:0]` (R154, R246). -/
def lowByte (a : Word) : Byte := a.extractLsb' 0 8

/-- LDA (R141). -/
def execLda (m : MemOp) (s : State) : Host.Outcome State Fault Refusal :=
  answer (loadWord RegNo.A m s)

/-- LDX (R142). -/
def execLdx (m : MemOp) (s : State) : Host.Outcome State Fault Refusal :=
  answer (loadWord RegNo.X m s)

/-- LDL (R143). -/
def execLdl (m : MemOp) (s : State) : Host.Outcome State Fault Refusal :=
  answer (loadWord RegNo.L m s)

/-- LDB (R144). -/
def execLdb (m : MemOp) (s : State) : Host.Outcome State Fault Refusal :=
  answer (loadWord RegNo.B m s)

/-- LDS (R145). -/
def execLds (m : MemOp) (s : State) : Host.Outcome State Fault Refusal :=
  answer (loadWord RegNo.S m s)

/-- LDT (R146). -/
def execLdt (m : MemOp) (s : State) : Host.Outcome State Fault Refusal :=
  answer (loadWord RegNo.T m s)

/-- STA (R147). -/
def execSta (m : MemOp) (s : State) : Host.Outcome State Fault Refusal :=
  answer (storeWord RegNo.A m s)

/-- STX (R148). -/
def execStx (m : MemOp) (s : State) : Host.Outcome State Fault Refusal :=
  answer (storeWord RegNo.X m s)

/-- STL (R149). -/
def execStl (m : MemOp) (s : State) : Host.Outcome State Fault Refusal :=
  answer (storeWord RegNo.L m s)

/-- STB (R150). -/
def execStb (m : MemOp) (s : State) : Host.Outcome State Fault Refusal :=
  answer (storeWord RegNo.B m s)

/-- STS (R151). -/
def execSts (m : MemOp) (s : State) : Host.Outcome State Fault Refusal :=
  answer (storeWord RegNo.S m s)

/-- STT (R152). -/
def execStt (m : MemOp) (s : State) : Host.Outcome State Fault Refusal :=
  answer (storeWord RegNo.T m s)

/-- LDCH: the low byte of A takes `Operand1(da)`; A[23:8] is kept (R153). -/
def execLdch (m : MemOp) (s : State) : Host.Outcome State Fault Refusal :=
  answer ((sourceByte m s).map (fun c =>
    (s.writeReg RegNo.A (withLowByte (s.readReg RegNo.A) c)).setPc (s.pcAfter m.len)))

/-- STCH: one byte, A[7:0] (R154). -/
def execStch (m : MemOp) (s : State) : Host.Outcome State Fault Refusal :=
  answer ((storeAddress m 1 s).map (fun ea =>
    (s.setMem (s.mem.write ea (lowByte (s.readReg RegNo.A)))).setPc (s.pcAfter m.len)))

end Sys2Proof.Machine
end

