-- ==== Sys2Proof/Machine/DeviceIO.lean ====
section
/-! DEFINITION. The device instructions TD, RD and WD (spec/45_device_io.md). The id is read, with its bounds
check, before any device operation (R247). -/

namespace Sys2Proof.Machine

/-- TD: SW is LT when the device is ready, else EQ (R244). -/
def execTd (m : MemOp) (s : State) : Host.Outcome State Fault Refusal :=
  answer ((sourceByte m s).map (fun id =>
    ((s.setDev (s.dev.afterTest id)).setSw (ccReady (s.dev.testAnswer id))).setPc (s.pcAfter m.len)))

/-- RD: the byte read, or zero at end of stream or on failure, goes to the low byte of A (R245). -/
def execRd (m : MemOp) (s : State) : Host.Outcome State Fault Refusal :=
  answer ((sourceByte m s).map (fun id =>
    ((s.setDev (s.dev.afterRead id)).writeReg RegNo.A
      (withLowByte (s.readReg RegNo.A) ((s.dev.readAnswer id).getD 0x00#8))).setPc (s.pcAfter m.len)))

/-- WD: the low byte of A is written to the device; a failed write is ignored (R246). -/
def execWd (m : MemOp) (s : State) : Host.Outcome State Fault Refusal :=
  answer ((sourceByte m s).map (fun id =>
    (s.setDev (s.dev.afterWrite id (lowByte (s.readReg RegNo.A)))).setPc (s.pcAfter m.len)))

end Sys2Proof.Machine
end

