-- ==== Sys2Proof/Machine/Dispatch.lean ====
section
/-! DEFINITION. The dispatch: one arm per instruction, each a call of its meaning. -/

namespace Sys2Proof.Machine

def exec (i : Instr) (s : State) : Host.Outcome State Fault Refusal :=
  match i with
  | .lda m => Sys2Proof.Machine.execLda m s
  | .ldx m => Sys2Proof.Machine.execLdx m s
  | .ldl m => Sys2Proof.Machine.execLdl m s
  | .ldb m => Sys2Proof.Machine.execLdb m s
  | .lds m => Sys2Proof.Machine.execLds m s
  | .ldt m => Sys2Proof.Machine.execLdt m s
  | .sta m => Sys2Proof.Machine.execSta m s
  | .stx m => Sys2Proof.Machine.execStx m s
  | .stl m => Sys2Proof.Machine.execStl m s
  | .stb m => Sys2Proof.Machine.execStb m s
  | .sts m => Sys2Proof.Machine.execSts m s
  | .stt m => Sys2Proof.Machine.execStt m s
  | .ldch m => Sys2Proof.Machine.execLdch m s
  | .stch m => Sys2Proof.Machine.execStch m s
  | .add m => Sys2Proof.Machine.execAdd m s
  | .sub m => Sys2Proof.Machine.execSub m s
  | .mul m => Sys2Proof.Machine.execMul m s
  | .div m => Sys2Proof.Machine.execDiv m s
  | .comp m => Sys2Proof.Machine.execComp m s
  | .tix m => Sys2Proof.Machine.execTix m s
  | .j m => Sys2Proof.Machine.execJ m s
  | .jeq m => Sys2Proof.Machine.execJeq m s
  | .jlt m => Sys2Proof.Machine.execJlt m s
  | .jgt m => Sys2Proof.Machine.execJgt m s
  | .jsub m => Sys2Proof.Machine.execJsub m s
  | .rsub m => Sys2Proof.Machine.execRsub m s
  | .td m => Sys2Proof.Machine.execTd m s
  | .rd m => Sys2Proof.Machine.execRd m s
  | .wd m => Sys2Proof.Machine.execWd m s
  | .addr r1 r2 => Sys2Proof.Machine.execAddr r1 r2 s
  | .subr r1 r2 => Sys2Proof.Machine.execSubr r1 r2 s
  | .mulr r1 r2 => Sys2Proof.Machine.execMulr r1 r2 s
  | .divr r1 r2 => Sys2Proof.Machine.execDivr r1 r2 s
  | .compr r1 r2 => Sys2Proof.Machine.execCompr r1 r2 s
  | .rmo r1 r2 => Sys2Proof.Machine.execRmo r1 r2 s
  | .clear r1 => Sys2Proof.Machine.execClear r1 s
  | .tixr r1 => Sys2Proof.Machine.execTixr r1 s

end Sys2Proof.Machine
end

