-- ==== Sys2Proof/Machine/Fetch.lean ====
section
/-! DEFINITION. Instruction fetch and length determination (spec/30_encoding.md R86), and the placing of an
instruction where the next step fetches it. -/

namespace Sys2Proof.Machine

/-- The length of the instruction at an address: byte 1 is looked at only where it is needed and exists
(R86). -/
def lengthAt (s : State) (a : Nat) : Option Nat :=
  instrLength s.params.opcodeMap (s.mem.read a)
    (if s.InBounds (a + 1) 1 then some (s.mem.read (a + 1)) else none)

/-- The bytes of the instruction at the PC, or the fetch's error halt (R86). -/
def fetch (s : State) : Except ErrorKind (List Byte) :=
  if s.InBounds s.regs.pc.toNat 1 then
    match lengthAt s s.regs.pc.toNat with
    | none => .error .fetchShort
    | some len =>
      if s.InBounds s.regs.pc.toNat len then .ok (s.mem.readList s.regs.pc.toNat len)
      else .error .fetchShort
  else .error .pcBounds

/-- The program range `[load_base, load_base + total_length)`, compared as exact integers (R310). -/
abbrev State.inProgramRange (s : State) (pc : Word) : Prop :=
  s.prog.loadBase.toNat ≤ pc.toNat ∧ pc.toNat < s.prog.loadBase.toNat + s.prog.totalLength.toNat

/-- A state whose next step fetches the given bytes: they stand at the PC, the controller is ready, and the
program range holds the PC. It stands for a load and an initialization (R331). A PC so near the end of memory
that the bytes would run past it is moved to 0. -/
def State.withFetchBytes (s : State) (bs : List Byte) : State :=
  let pc : Word := if s.InBounds s.regs.pc.toNat bs.length then s.regs.pc else 0#24
  let prog := if s.inProgramRange pc then s.prog
    else { s.prog with loadBase := pc, totalLength := BitVec.ofNat 24 bs.length }
  { s with
    regs := { s.regs with pc := pc }
    mem := writeBytes s.params.memSize s.mem pc.toNat bs
    prog := prog
    ready := true }

end Sys2Proof.Machine
end

