-- ==== Sys2Proof/Machine/Controller.lean ====
section
/-! DEFINITION. The engine's sequence and the Execution Controller (spec/60_exceptions.md R300 to R314): the
step, the check order, the commit and the halts. -/

namespace Sys2Proof.Machine

/-- An engine halt as the controller reports it: not ready, one log entry, nothing else changed (R302, R304,
R310). -/
def engineStop (s : State) (o : StopOutcome) (bytes : List Byte) (ea : Option Word) :
    Host.Outcome State Fault Refusal :=
  .fault (.stopped o (s.halt (.engineHalt o { addr := s.regs.pc, bytes := bytes, ea := ea })))

/-- What the controller makes of the engine's result for instruction `i`, started in `s` (R310, R311). -/
def settle (s : State) (i : Instr) (bytes : List Byte) :
    Host.Outcome State Fault Refusal → Host.Outcome State Fault Refusal
  | .next t => .next (t.commit s.regs.pc i (reportedEa i s))
  | .fault (.errorHalt k) => engineStop s (.errorHalt k) bytes (reportedEa i s)
  | .fault .normalHalt => engineStop s .normalHalt bytes (reportedEa i s)
  | .fault (.stopped o t) => .fault (.stopped o t)
  | .refused r => .refused r

/-- A word with an unknown opcode: its operand is resolved first, then the dispatch fails (R91, R110,
R305). -/
def unknownWord (s : State) (m : MemOp) (bytes : List Byte) : Host.Outcome State Fault Refusal :=
  match resolve m s with
  | .error k => engineStop s (.errorHalt k) bytes none
  | .ok da => engineStop s (.errorHalt .unknownOpcode) bytes da.ea

/-- Decode the fetched bytes and run the instruction. Bytes that the fetch took are never truncated, as
Sys2Proof/Laws proves. -/
def runFetched (s : State) (bytes : List Byte) : Host.Outcome State Fault Refusal :=
  match decodeWith s.params.opcodeMap bytes with
  | .ok (i, _) => settle s i bytes (exec i s)
  | .error (.unknownOpcode _ m) => unknownWord s m bytes
  | .error .truncated => engineStop s (.errorHalt .fetchShort) bytes none

/-- The engine under the controller: fetch, decode, resolve, dispatch, in that order (R305). -/
def engineStep (s : State) : Host.Outcome State Fault Refusal :=
  match fetch s with
  | .error k => engineStop s (.errorHalt k) [] none
  | .ok bytes => runFetched s bytes

/-- The class of a bounds halt (R310). -/
def boundsOutcome (s : State) : StopOutcome :=
  match s.params.boundsHalt with
  | .rsubNormal => if s.retFlag then .normalHalt else .errorHalt .pcRange
  | .alwaysNormal => .normalHalt
  | .alwaysError => .errorHalt .pcRange

/-- `step()` (R310): Continue is a next state; Stop is a fault that carries what step returns and the state
it leaves. -/
def controllerStep (s : State) : Host.Outcome State Fault Refusal :=
  if s.ready then
    if s.inProgramRange s.regs.pc then engineStep s
    else .fault (.stopped (boundsOutcome s) (s.halt (.boundsHalt (boundsOutcome s) s.regs.pc)))
  else .fault (.stopped .notReady s)

/-- `init()` (R313). -/
def State.init (s : State) : State :=
  { s with
    regs := { s.regs with pc := s.prog.entry }
    ready := true
    retFlag := false
    steps := 0 }

/-- `reset()` (R330): every piece of the block's state takes its reset value under the machine's own
parameters; the host's devices are not touched. -/
def State.hostReset (s : State) : State := { State.resetWith s.params with dev := s.dev }

/-- One more call of step counted in the current run (R312). -/
def State.countStep (s : State) : State := { s with steps := s.steps + 1 }

/-- The loop of `run()` with the calls of step it may still make; a Stop, the ceiling's among them, is a fault
that carries what run returns and the state it leaves (R312). -/
def runLoop : Nat → State → Host.Outcome State Fault Refusal
  | 0, s => .fault (.stopped .ceiling s)
  | n + 1, s =>
    match controllerStep s with
    | .next t => runLoop n t.countStep
    | .fault (.stopped o t) => .fault (.stopped o t.countStep)
    | other => other

/-- `run()` (R312). -/
def State.run (s : State) : Host.Outcome State Fault Refusal :=
  runLoop s.params.runCeiling { s with steps := 0 }

end Sys2Proof.Machine
end

