-- ==== Sys2Proof/Machine/Step.lean ====
section
/-! DEFINITION. The step, and the placing of an instruction at the fetch. -/

namespace Sys2Proof.Machine

/-- One call of the controller's `step()` (spec/60_exceptions.md R310). -/
def step (s : State) : Host.Outcome State Fault Refusal := controllerStep s

/-- The state with an opcode-table row's bits stored where the next step fetches. -/
def State.withFetchWord (s : State) (nbits w : Nat) : State := s.withFetchBytes (tableBytes nbits w)

end Sys2Proof.Machine
end

