-- ==== Sys2Proof/Machine/Records.lean ====
section
/-! DEFINITION. The object file's text: lines, columns, hex fields, symbols, and the six record types read
from a line (spec/50_loader.md R262 to R269). -/

namespace Sys2Proof.Machine

/-- Diagnostic kinds of the loader (R284). -/
inductive LoadKind where
  /-- `L_MALFORMED` -/
  | malformed
  /-- `L_UNKNOWN_RECORD` -/
  | unknownRecord
  /-- `L_BOUNDS` -/
  | bounds
  /-- `L_UNRESOLVED` -/
  | unresolved
deriving DecidableEq, Repr

/-- A report entry: a line, numbered from 1, or a buffered M entry, numbered from 0 (R284). -/
inductive LoadReport where
  | line (n : Nat) (k : LoadKind)
  | entry (n : Nat) (k : LoadKind)
deriving DecidableEq, Repr

/-- `line[c1..c2]`, columns numbered from 1, as far as the line reaches (R262). -/
def columns (line : Text) (c1 c2 : Nat) : Text := (line.drop (c1 - 1)).take (c2 + 1 - c1)

/-- The value of a hex digit: 0-9, A-F, a-f (R263). -/
def hexDigit (c : Char) : Option Nat :=
  let n := c.toNat
  if 48 ≤ n ∧ n ≤ 57 then some (n - 48)
  else if 65 ≤ n ∧ n ≤ 70 then some (n - 55)
  else if 97 ≤ n ∧ n ≤ 102 then some (n - 87)
  else none

/-- The unsigned value of hex digits read after `acc`. -/
def hexDigits : Nat → Text → Option Nat
  | acc, [] => some acc
  | acc, c :: rest =>
    match hexDigit c with
    | some d => hexDigits (acc * 16 + d) rest
    | none => none

/-- A hex field of exactly `k` characters (R263). -/
def hexField (k : Nat) (t : Text) : Option Nat := if t.length = k then hexDigits 0 t else none

/-- A 6-digit hex field as a 24-bit value. -/
def hexWord (t : Text) : Option Word := (hexField 6 t).map (BitVec.ofNat 24)

/-- Trim leading and trailing spaces (R263). -/
def trim (t : Text) : Text :=
  ((t.dropWhile (· == ' ')).reverse.dropWhile (· == ' ')).reverse

/-- Payload bytes: pairs of hex digits (R267). -/
def hexBytes : Text → Option (List Byte)
  | [] => some []
  | [_] => none
  | c :: d :: rest =>
    match hexField 2 [c, d], hexBytes rest with
    | some v, some vs => some (BitVec.ofNat 8 v :: vs)
    | _, _ => none

/-- Remove the line terminator, LF or CR LF, where there is one (R262). -/
def stripTerminator (line : Text) : Text :=
  match line.reverse with
  | '\n' :: '\r' :: rest => rest.reverse
  | '\n' :: rest => rest.reverse
  | _ => line

/-- Cut a text after each LF, keeping the terminators; `acc` is the current line read so far, reversed. -/
def cutLines : Text → Text → List Text
  | acc, [] => if acc = [] then [] else [acc.reverse]
  | acc, c :: rest =>
    if c = '\n' then (c :: acc).reverse :: cutLines [] rest else cutLines (c :: acc) rest

/-- The lines of an object file, each with its terminator (R262). -/
def fileLines (file : Text) : List Text := cutLines [] file

/-- The operation of an M record (R268). -/
inductive ModOp where
  | plus
  | minus
deriving DecidableEq, Repr

/-- The field width of an M record: 5 half-bytes (20 bits) or 6 (24 bits) (R268). -/
inductive ModWidth where
  | five
  | six
deriving DecidableEq, Repr

/-- One group of a D record, or none for a group that is bad (R265). -/
abbrev DefGroup := Option (Text × Word)

/-- The address field of an E record (R269). -/
inductive EndField where
  /-- Not there, or all spaces. -/
  | absent
  | address (a : Word)
  /-- There, but not six hex digits. -/
  | bad
deriving DecidableEq, Repr

/-- A line as a record. -/
inductive Record where
  | header (name : Text) (start length : Word)
  | define (groups : List DefGroup)
  | refer
  | text (start : Word) (bytes : List Byte)
  | modify (rel : Word) (width : ModWidth) (op : ModOp) (sym : Text)
  | finish (field : EndField)
  | blank
  /-- A record that is reported as malformed and skipped (R263). -/
  | malformed
  /-- A type letter that is none of the six (R262). -/
  | unknown
deriving DecidableEq, Repr

/-- H: name in columns 2 to 7, start in 8 to 13, length in 14 to 19 (R264). -/
def parseHeader (line : Text) : Record :=
  match hexWord (columns line 8 13), hexWord (columns line 14 19) with
  | some start, some length => .header (trim (columns line 2 7)) start length
  | _, _ => .malformed

/-- One D group of 12 characters: the symbol and its relative address (R265). -/
def parseGroup (g : Text) : DefGroup := (hexWord (columns g 7 12)).map (fun rel => (trim (columns g 1 6), rel))

/-- The D groups of the text after column 1; a trailing group shorter than 12 characters is bad (R265). The
first argument bounds the number of groups. -/
def parseGroups : Nat → Text → List DefGroup
  | 0, _ => []
  | n + 1, t =>
    if t = [] then []
    else if t.length < 12 then [none]
    else parseGroup (t.take 12) :: parseGroups n (t.drop 12)

/-- T: start in columns 2 to 7, count in 8 to 9, payload of `count` bytes from column 10; what follows the
payload is ignored (R267). -/
def parseText (line : Text) : Record :=
  match hexWord (columns line 2 7), hexField 2 (columns line 8 9) with
  | some start, some cnt =>
    let payload := columns line 10 (9 + 2 * cnt)
    if payload.length = 2 * cnt then
      match hexBytes payload with
      | some bytes => .text start bytes
      | none => .malformed
    else .malformed
  | _, _ => .malformed

/-- The width field of an M record: 5 or 6 (R268). -/
def parseWidth (t : Text) : Option ModWidth :=
  match hexField 2 t with
  | some 5 => some .five
  | some 6 => some .six
  | _ => none

/-- The operation column of an M record (R268). -/
def parseOp (t : Text) : Option ModOp :=
  if t = ['+'] then some .plus else if t = ['-'] then some .minus else none

/-- M: address in columns 2 to 7, width in 8 to 9, operation in 10, symbol from 11 on (R268). -/
def parseModify (line : Text) : Record :=
  match hexWord (columns line 2 7), parseWidth (columns line 8 9), parseOp (columns line 10 10) with
  | some rel, some width, some op =>
    if trim (line.drop 10) = [] then .malformed else .modify rel width op (trim (line.drop 10))
  | _, _, _ => .malformed

/-- E: the optional address in columns 2 to 7 (R269). -/
def parseEnd (line : Text) : Record :=
  let t := columns line 2 7
  if trim t = [] then .finish .absent
  else
    match hexWord t with
    | some a => .finish (.address a)
    | none => .finish .bad

/-- The record of a line without its terminator (R262). -/
def parseRecord : Text → Record
  | [] => .blank
  | c :: rest =>
    if c = 'H' then parseHeader (c :: rest)
    else if c = 'D' then .define (parseGroups (rest.length + 1) rest)
    else if c = 'R' then .refer
    else if c = 'T' then parseText (c :: rest)
    else if c = 'M' then parseModify (c :: rest)
    else if c = 'E' then parseEnd (c :: rest)
    else .unknown

end Sys2Proof.Machine
end

