-- ==== Sys2Proof/Machine/Loader.lean ====
section
/-! DEFINITION. The object-code loader (spec/50_loader.md): the scan phase, the finalize phase with its
relocation, and the publication of the metadata. It runs while the engine is idle (R260). -/

namespace Sys2Proof.Machine

/-- A buffered modification (R261, R268). -/
structure ModEntry where
  rel : Word
  width : ModWidth
  op : ModOp
  sym : Text
  /-- The load address of the section it belongs to. -/
  cs : Word
deriving DecidableEq, Repr

/-- The loader's transient state (R261), with the memory it writes. -/
structure Loader where
  mem : Memory
  nextAddr : Word
  csAddr : Word
  csLength : Word
  total : Word
  /-- The external symbol table, newest definition first. -/
  estab : List (Text × Word)
  /-- The buffered modifications, in file order. -/
  mbuf : List ModEntry
  entry : Word
  entrySet : Bool
  /-- Name and declared start of the first H record; none before it (the table's `seen_H`). -/
  header : Option (Text × Word)
  report : List LoadReport
deriving DecidableEq, Repr

/-- The loader's state at the start of a load (R261). -/
def Loader.start (p : Params) (m : Memory) : Loader :=
  { mem := m, nextAddr := p.loadBase, csAddr := p.loadBase, csLength := 0#24, total := 0#24, estab := [],
    mbuf := [], entry := p.loadBase, entrySet := false, header := none, report := [] }

/-- Add a report entry (R284). -/
def Loader.note (l : Loader) (r : LoadReport) : Loader := { l with report := l.report ++ [r] }

/-- Define a symbol; a second definition replaces the first (R272). -/
def Loader.define (l : Loader) (sym : Text) (a : Word) : Loader := { l with estab := (sym, a) :: l.estab }

/-- The address of a symbol: its last definition (R272). -/
def lookupSymbol : List (Text × Word) → Text → Option Word
  | [], _ => none
  | (k, a) :: rest, sym => if k = sym then some a else lookupSymbol rest sym

/-! ### Scan phase -/

/-- H (R264): the section starts at the running load address, never at its declared start. -/
def Loader.onHeader (l : Loader) (name : Text) (start length : Word) : Loader :=
  { l with
    csAddr := l.nextAddr
    csLength := length
    header := some (l.header.getD (name, start))
    estab := (name, l.nextAddr) :: l.estab }

/-- The groups of a D record, each defined at the section's address plus its own, or reported (R265). -/
def Loader.onDefine (n : Nat) : Loader → List DefGroup → Loader
  | l, [] => l
  | l, some (sym, rel) :: rest => Loader.onDefine n (l.define sym (l.csAddr + rel)) rest
  | l, none :: rest => Loader.onDefine n (l.note (.line n .malformed)) rest

/-- T (R271): the bytes are written at the section's address plus the record's, or none is. -/
def Loader.onText (memSize : Nat) (n : Nat) (l : Loader) (start : Word) (bytes : List Byte) : Loader :=
  if inBounds memSize (l.csAddr + start).toNat bytes.length then
    { l with mem := writeBytes memSize l.mem (l.csAddr + start).toNat bytes }
  else l.note (.line n .bounds)

/-- M (R268): buffered with the section's load address, not applied. -/
def Loader.onModify (l : Loader) (rel : Word) (width : ModWidth) (op : ModOp) (sym : Text) : Loader :=
  { l with mbuf := l.mbuf ++ [{ rel := rel, width := width, op := op, sym := sym, cs := l.csAddr }] }

/-- E's accounting: the section's declared length joins the total and moves the running load address past
it (R269, R270). -/
def Loader.endSection (l : Loader) : Loader :=
  { l with total := l.total + l.csLength, nextAddr := l.csAddr + l.csLength }

/-- E's entry address: the first E record that is not malformed sets it (R269). -/
def Loader.setEntry (l : Loader) (a : Word) : Loader :=
  if l.entrySet then l else { l with entry := a, entrySet := true }

/-- E (R269). -/
def Loader.onEnd (n : Nat) (l : Loader) : EndField → Loader
  | .absent => (l.setEntry l.csAddr).endSection
  | .address a => (l.setEntry (l.csAddr + a)).endSection
  | .bad => (l.note (.line n .malformed)).endSection

/-- One record, on line `n`. -/
def Loader.onRecord (memSize : Nat) (n : Nat) (l : Loader) : Record → Loader
  | .header name start length => l.onHeader name start length
  | .define groups => l.onDefine n groups
  | .refer => l
  | .text start bytes => l.onText memSize n start bytes
  | .modify rel width op sym => l.onModify rel width op sym
  | .finish field => l.onEnd n field
  | .blank => l
  | .malformed => l.note (.line n .malformed)
  | .unknown => l.note (.line n .unknownRecord)

/-- The scan phase over the lines from number `n` on (R260). -/
def Loader.scan (memSize : Nat) : Nat → Loader → List Text → Loader
  | _, l, [] => l
  | n, l, line :: rest =>
    Loader.scan memSize (n + 1) (l.onRecord memSize n (parseRecord (stripTerminator line))) rest

/-! ### Finalize phase -/

/-- The field arithmetic of an M entry: the sum or difference, in the width of the field (R276). -/
def modApply {w : Nat} (op : ModOp) (f s : BitVec w) : BitVec w :=
  match op with
  | .plus => f + s
  | .minus => f - s

/-- The relocated 3-byte value: a width of 5 keeps the high nibble of the first byte (R276). -/
def relocate (width : ModWidth) (op : ModOp) (v s : Word) : Word :=
  match width with
  | .five => v.extractLsb' 20 4 ++ modApply op (v.extractLsb' 0 20) (s.extractLsb' 0 20)
  | .six => modApply op v s

/-- Apply entry number `k` (R276, R277). -/
def Loader.applyEntry (memSize : Nat) (k : Nat) (l : Loader) (e : ModEntry) : Loader :=
  match lookupSymbol l.estab e.sym with
  | none => l.note (.entry k .unresolved)
  | some s =>
    if inBounds memSize (e.cs + e.rel).toNat 3 then
      { l with
        mem := l.mem.writeWord (e.cs + e.rel).toNat
          (relocate e.width e.op (l.mem.readWord (e.cs + e.rel).toNat) s) }
    else l.note (.entry k .bounds)

/-- Apply the entries one at a time, in file order, from number `k` on (R273). -/
def Loader.applyAll (memSize : Nat) : Nat → Loader → List ModEntry → Loader
  | _, l, [] => l
  | k, l, e :: rest => Loader.applyAll memSize (k + 1) (l.applyEntry memSize k e) rest

/-- The finalize phase (R260, R273): the buffer is applied, then discarded. -/
def Loader.finalize (memSize : Nat) (l : Loader) : Loader :=
  { Loader.applyAll memSize 0 l l.mbuf with mbuf := [] }

/-! ### The load -/

/-- The whole load of an object file's lines into a memory. -/
def loadLines (p : Params) (m : Memory) (lines : List Text) : Loader :=
  (Loader.scan p.memSize 1 (Loader.start p m) lines).finalize p.memSize

/-- The metadata published after a load; a file with no H record leaves the name and address alone
(R280). -/
def LoadedProgram.publish (old : LoadedProgram) (p : Params) (l : Loader) : LoadedProgram :=
  { progName := (l.header.map Prod.fst).getD old.progName
    headerAddr := (l.header.map Prod.snd).getD old.headerAddr
    totalLength := l.total
    loadBase := p.loadBase
    entry := l.entry }

/-- `load(lines)` (R260 to R284): memory and metadata, and the report. No register, flag or device changes
(R281). -/
def State.load (s : State) (lines : List Text) : State × List LoadReport :=
  let l := loadLines s.params s.mem lines
  ({ s with mem := l.mem, prog := s.prog.publish s.params l }, l.report)

/-- A load of an object file given as one text. -/
def State.loadFile (s : State) (file : Text) : State × List LoadReport := s.load (fileLines file)

end Sys2Proof.Machine
end

