-- ==== Sys2Proof/Safety.lean ====
section
/-! DEFINITION. What counts as a safe state and a safe step, in the terms the claims use: the invariant of the
state, the states a step leaves, operands that can be read, and what each instruction may write. -/

namespace Sys2Proof.Machine

/-- Every listed byte of memory exists: `m[0 .. MEM_SIZE-1]` (spec/10_state.md R30). -/
abbrev Memory.within (m : Memory) (memSize : Nat) : Prop := ∀ c ∈ m, c.1 < memSize

/-- The invariant of the state: memory is canonical and holds only bytes that exist. -/
abbrev State.Inv (s : State) : Prop := s.mem.wf ∧ s.mem.within s.params.memSize

/-- `t` is the state a step leaves, whether it continues or stops (spec/60_exceptions.md R310). -/
def Leaves (o : Host.Outcome State Fault Refusal) (t : State) : Prop :=
  o = .next t ∨ ∃ why, o = .fault (.stopped why t)

/-- Everything but the controller's `ready` flag and its log is as before (R302, R304). -/
def SameButReadyAndLog (s t : State) : Prop :=
  t.regs = s.regs ∧ t.f = s.f ∧ t.mem = s.mem ∧ t.prog = s.prog ∧ t.retFlag = s.retFlag ∧
    t.steps = s.steps ∧ t.dev = s.dev ∧ t.params = s.params

/-- The controller lets the engine run (R310). -/
abbrev State.runnable (s : State) : Prop := s.ready = true ∧ s.inProgramRange s.regs.pc

/-- The operand `m` is readable as a word, and it is `v`: an immediate, or three bytes that exist
(spec/40_addressing.md R126). -/
def WordOperand (m : MemOp) (s : State) (v : Word) : Prop :=
  resolve m s = .ok (.imm v) ∨
    ∃ ea, resolve m s = .ok (.mem ea) ∧ s.InBounds ea.toNat 3 ∧ s.mem.readWord ea.toNat = v

/-- The operand `m` is readable as a byte, and it is `c` (R127). -/
def ByteOperand (m : MemOp) (s : State) (c : Byte) : Prop :=
  (∃ v, resolve m s = .ok (.imm v) ∧ v.extractLsb' 0 8 = c) ∨
    ∃ ea, resolve m s = .ok (.mem ea) ∧ s.InBounds ea.toNat 1 ∧ s.mem.read ea.toNat = c

/-- Where an instruction stores, and how many bytes; none where it stores nothing
(spec/20_memory.md R58). -/
def storeRange (i : Instr) (s : State) : Option (Nat × Nat) :=
  match i with
  | .sta m | .stx m | .stl m | .stb m | .sts m | .stt m => (storeAddress m 3 s).toOption.map (·, 3)
  | .stch m => (storeAddress m 1 s).toOption.map (·, 1)
  | .lda _ | .ldx _ | .ldl _ | .ldb _ | .lds _ | .ldt _ | .ldch _ => none
  | .add _ | .sub _ | .mul _ | .div _ | .comp _ | .tix _ => none
  | .j _ | .jeq _ | .jlt _ | .jgt _ | .jsub _ | .rsub _ | .td _ | .rd _ | .wd _ => none
  | .addr _ _ | .subr _ _ | .mulr _ _ | .divr _ _ | .compr _ _ | .rmo _ _ | .clear _ | .tixr _ => none

/-- The registers an instruction may write, the PC aside (spec/10_state.md R24, R28). -/
def writtenRegs : Instr → List RegNo
  | .lda _ | .ldch _ | .add _ | .sub _ | .mul _ | .div _ | .rd _ => [RegNo.A]
  | .ldx _ => [RegNo.X]
  | .ldl _ | .jsub _ => [RegNo.L]
  | .ldb _ => [RegNo.B]
  | .lds _ => [RegNo.S]
  | .ldt _ => [RegNo.T]
  | .comp _ | .compr _ _ | .td _ => [RegNo.SW]
  | .tix _ | .tixr _ => [RegNo.X, RegNo.SW]
  | .addr _ r2 | .subr _ r2 | .mulr _ r2 | .divr _ r2 | .rmo _ r2 => [r2]
  | .clear r1 => [r1]
  | .sta _ | .stx _ | .stl _ | .stb _ | .sts _ | .stt _ | .stch _ => []
  | .j _ | .jeq _ | .jlt _ | .jgt _ | .rsub _ | .wd _ => []

/-- The name and declared start that an H record publishes; none for every other record
(spec/50_loader.md R264). -/
def Record.headerFields : Record → Option (Text × Word)
  | .header name start _ => some (name, start)
  | .define _ | .refer | .text _ _ | .modify _ _ _ _ | .finish _ => none
  | .blank | .malformed | .unknown => none

/-- The instructions that operate on a device (spec/45_device_io.md). -/
def touchesDevice : Instr → Bool
  | .td _ | .rd _ | .wd _ => true
  | .lda _ | .ldx _ | .ldl _ | .ldb _ | .lds _ | .ldt _ | .ldch _ => false
  | .sta _ | .stx _ | .stl _ | .stb _ | .sts _ | .stt _ | .stch _ => false
  | .add _ | .sub _ | .mul _ | .div _ | .comp _ | .tix _ => false
  | .j _ | .jeq _ | .jlt _ | .jgt _ | .jsub _ | .rsub _ => false
  | .addr _ _ | .subr _ _ | .mulr _ _ | .divr _ _ | .compr _ _ | .rmo _ _ | .clear _ | .tixr _ => false

/-- The instructions that reject immediate addressing: the stores and the jumps, RSUB aside (R301). -/
def needsAddress : Instr → Bool
  | .sta _ | .stx _ | .stl _ | .stb _ | .sts _ | .stt _ | .stch _ => true
  | .j _ | .jeq _ | .jlt _ | .jgt _ | .jsub _ => true
  | .lda _ | .ldx _ | .ldl _ | .ldb _ | .lds _ | .ldt _ | .ldch _ => false
  | .add _ | .sub _ | .mul _ | .div _ | .comp _ | .tix _ | .rsub _ | .td _ | .rd _ | .wd _ => false
  | .addr _ _ | .subr _ _ | .mulr _ _ | .divr _ _ | .compr _ _ | .rmo _ _ | .clear _ | .tixr _ => false

/-- How many bytes of memory an instruction reads or writes as its data operand when its addressing is not
immediate; 0 where it accesses none (spec/20_memory.md R58). -/
def dataWidth : Instr → Nat
  | .lda _ | .ldx _ | .ldl _ | .ldb _ | .lds _ | .ldt _ => 3
  | .sta _ | .stx _ | .stl _ | .stb _ | .sts _ | .stt _ => 3
  | .add _ | .sub _ | .mul _ | .div _ | .comp _ | .tix _ => 3
  | .ldch _ | .stch _ | .td _ | .rd _ | .wd _ => 1
  | .j _ | .jeq _ | .jlt _ | .jgt _ | .jsub _ | .rsub _ => 0
  | .addr _ _ | .subr _ _ | .mulr _ _ | .divr _ _ | .compr _ _ | .rmo _ _ | .clear _ | .tixr _ => 0

end Sys2Proof.Machine
end

