-- ==== Sys2Proof/Certificates/Slice0/Obligations.lean ====
section
/-! DEFINITION. The statements for the provers. `s.regs.pc + BitVec.ofNat 24 n` is the address `n` bytes
further on, modulo 2^24 (spec/10_state.md R27). An equation `{ s with … }` also says that the fields it does not name
are as before; of these, that the parameters stand in State and the form of the device side are the model's
(notes/assumptions/1.md, 10.md), and that only `run` counts `steps` is DEDUCED (notes/assumptions/24.md). -/

open Sys2Proof Sys2Proof.Machine

/-! ### Encoding -/

/-- Under every well-formed opcode map, decoding the bytes of a well-formed instruction, whatever follows
them, gives that instruction and what follows (spec/30_encoding.md sections 1 to 4). What is well-formed, and what
the encoder writes in unexamined bits, are the model's (notes/assumptions/26.md, 27.md, 29.md); the nibble order is
the spec's passage GK6 (notes/assumptions/6.md). -/
def Obligations.DecodeOfEncodeIsTheInstruction : Prop :=
  ∀ (map : OpcodeMap) (i : Instr) (rest : List Byte),
    map.wellFormed = true → i.wellFormed = true →
    ∃ bytes, encodeWith map i = some bytes ∧ bytes.length = i.len ∧
      decodeWith map (bytes ++ rest) = .ok (i, rest)

/-- Bytes that decode are the encoding of what they decode to, but for the bits of a format-2 instruction
that the spec leaves unexamined (R92): bits 1:0 of byte 0, and the r2 nibble of CLEAR and TIXR. The nibble order is
the spec's passage GK6 (notes/assumptions/6.md). -/
def Obligations.DecodedBytesAreTheEncoding : Prop :=
  ∀ (bytes rest : List Byte) (i : Instr),
    decode bytes = .ok (i, rest) →
    i.wellFormed = true ∧
    (i.memOp? ≠ none → bytes = encode i ++ rest) ∧
    (i.memOp? = none → ∃ b0 b1, bytes = b0 :: b1 :: rest ∧
      standardOpcodeMap.codeOf i.op = some (opcodeOf b0) ∧ reg1Of b1 = i.regPair.1 ∧
      (i.op ≠ .clear → i.op ≠ .tixr → reg2Of b1 = i.regPair.2))

/-- Words written out from the encodings of R82 to R84 and the opcodes of R88 decode to their instructions:
`LDA #5`, `+JSUB 0x13`, `JLT` PC-relative, `TD` direct, `ADDR S,A` (also as byte 0x91), `CLEAR X`. The numbers
are the spec's passage GK1 (notes/assumptions/5.md), the register numbers GK3 and the nibble order GK6
(notes/assumptions/6.md). -/
def Obligations.SpecWordsDecodeToTheirInstructions : Prop :=
  decode [0x01#8, 0x00#8, 0x05#8] = .ok (.lda ⟨false, true, false, false, false, false, 5#20⟩, []) ∧
  decode [0x4B#8, 0x10#8, 0x00#8, 0x13#8] =
    .ok (.jsub ⟨true, true, false, false, false, true, 0x13#20⟩, []) ∧
  decode [0x3B#8, 0x2F#8, 0xF7#8] = .ok (.jlt ⟨true, true, false, false, true, false, 0xFF7#20⟩, []) ∧
  decode [0xE3#8, 0x02#8, 0x00#8] = .ok (.td ⟨true, true, false, false, false, false, 0x200#20⟩, []) ∧
  decode [0x90#8, 0x40#8] = .ok (.addr 4#4 0#4, []) ∧
  decode [0x91#8, 0x40#8] = .ok (.addr 4#4 0#4, []) ∧
  decode [0xB4#8, 0x10#8] = .ok (.clear 1#4, [])

/-- Fetch and length determination (R86). -/
def Obligations.FetchFollowsTheLengthRule : Prop :=
  ∀ s : State,
    let a := s.regs.pc.toNat
    let size := s.params.memSize
    let op := s.params.opcodeMap.opOf (opcodeOf (s.mem.read a))
    (size ≤ a → fetch s = .error .pcBounds) ∧
    (a < size → (∃ o, op = some o ∧ o.isFormat2 = true) →
      fetch s = if a + 2 ≤ size then .ok [s.mem.read a, s.mem.read (a + 1)] else .error .fetchShort) ∧
    (a < size → (∀ o, op = some o → o.isFormat2 = false) →
      (size ≤ a + 1 → fetch s = .error .fetchShort) ∧
      (a + 1 < size → (s.mem.read (a + 1)).getLsbD 4 = false →
        fetch s = if a + 3 ≤ size then .ok [s.mem.read a, s.mem.read (a + 1), s.mem.read (a + 2)]
          else .error .fetchShort) ∧
      (a + 1 < size → (s.mem.read (a + 1)).getLsbD 4 = true →
        fetch s = if a + 4 ≤ size then
            .ok [s.mem.read a, s.mem.read (a + 1), s.mem.read (a + 2), s.mem.read (a + 3)]
          else .error .fetchShort))

/-! ### Addressing -/

/-- The field of an operand as a number (R90, R113): disp12 is sign-extended exactly when b or p is set or
n = i = 0, addr20 never; with the ranges of R90. -/
def Obligations.FieldIsSignExtendedExactlyWhenRelativeOrSic : Prop :=
  ∀ m : MemOp,
    (m.e = true → m.fieldValue = m.field.toNat ∧ m.fieldValue < 2 ^ 20) ∧
    (m.e = false → (m.b = true ∨ m.p = true ∨ (m.n = false ∧ m.i = false)) →
      m.fieldValue = (m.field.toNat % 4096 : Nat) - (if m.field.getLsbD 11 then 4096 else 0) ∧
      -2048 ≤ m.fieldValue ∧ m.fieldValue ≤ 2047) ∧
    (m.e = false → m.b = false → m.p = false → (m.n = true ∨ m.i = true) →
      m.fieldValue = (m.field.toNat % 4096 : Nat) ∧ 0 ≤ m.fieldValue ∧ m.fieldValue ≤ 4095)

/-- The mode table (R112, R125), every sum modulo 2^24: PC-relative, base-relative, or direct, each with or
without X; immediate under both values of `IMM_REL_POLICY`; one big-endian pointer read for indirect. -/
def Obligations.ResolverFollowsTheModeTable : Prop :=
  ∀ (m : MemOp) (s : State),
    let f : Word := BitVec.ofInt 24 m.fieldValue
    let base : Word :=
      match m.b, m.p with
      | false, true => s.regs.pc + BitVec.ofNat 24 m.len + f
      | true, false => s.regs.b + f
      | false, false => f
      | true, true => f
    let target : Word := if m.x then base + s.regs.x else base
    (m.n = false → m.i = true →
      (s.params.immRel = .field → resolve m s = .ok (.imm f)) ∧
      (s.params.immRel = .textbook → resolve m s = .ok (.imm target))) ∧
    (m.n = m.i → resolve m s = .ok (.mem target)) ∧
    (m.n = true → m.i = false →
      (target.toNat + 3 ≤ s.params.memSize →
        resolve m s = .ok (.mem (s.mem.read target.toNat ++ s.mem.read (target.toNat + 1) ++
          s.mem.read (target.toNat + 2)))) ∧
      (s.params.memSize < target.toNat + 3 → resolve m s = .error .indirectBounds))

/-! ### Registers and memory -/

/-- Register access (spec/10_state.md R22, R23): a write is seen by a read of the same slot 0 to 9 and by no
other; indices 10 to 15, and slots 6 and 7 under `REG67_POLICY = ZERO`, read 0 and ignore writes. -/
def Obligations.RegisterFileReadsWhatWasWritten : Prop :=
  ∀ (p : Reg67Policy) (r : Regs) (k j : RegNo) (v : Word),
    let stored := fun n : RegNo => n.toNat ≤ 9 ∧ (p = .zero → n.toNat ≠ 6 ∧ n.toNat ≠ 7)
    (stored k → (r.write p k v).read p k = v) ∧
    (j ≠ k → (r.write p k v).read p j = r.read p j) ∧
    (¬ stored k → r.write p k v = r ∧ r.read p k = 0#24)

/-- A byte read after a write is the byte written at that address and the old byte at every other, and the
write keeps memory canonical; the canonical form is the model's (notes/assumptions/4.md). -/
def Obligations.ByteReadAfterWrite : Prop :=
  ∀ (m : Memory) (a b : Nat) (v : Byte), m.wf →
    (m.write a v).wf ∧ (m.write a v).read b = if b = a then v else m.read b

/-- Two canonical memories that read the same everywhere are the same data; the canonical form is the model's
(notes/assumptions/4.md). -/
def Obligations.CanonicalMemoriesAreEqualWhenTheyReadEqual : Prop :=
  ∀ m n : Memory, m.wf → n.wf → (∀ a, m.read a = n.read a) → m = n

/-- A word is stored big-endian, three bytes and no other, and reads back as the signed value of its 24 bits
(spec/20_memory.md R53 to R55). -/
def Obligations.WordStoreIsBigEndianAndReadsBackSigned : Prop :=
  ∀ (m : Memory) (a : Nat) (v : Word), m.wf →
    let m' := m.writeWord a v
    m'.read a = v.extractLsb' 16 8 ∧ m'.read (a + 1) = v.extractLsb' 8 8 ∧
    m'.read (a + 2) = v.extractLsb' 0 8 ∧
    (∀ b, b < a ∨ a + 3 ≤ b → m'.read b = m.read b) ∧
    m'.readSigned3 a = (if v.toNat < 2 ^ 23 then (v.toNat : Int) else (v.toNat : Int) - 2 ^ 24) ∧
    m'.readSigned1 a = (v.extractLsb' 16 8).toInt

/-! ### What each instruction does -/

/-- The six word loads (spec/41_load_store.md section 2): the register takes the operand, the PC advances,
nothing else changes. -/
def Obligations.WordLoadsTakeTheOperand : Prop :=
  ∀ (m : MemOp) (s : State) (v : Word), WordOperand m s v →
    let pc := s.regs.pc + BitVec.ofNat 24 m.len
    exec (.lda m) s = .next { s with regs := { s.regs with a := v, pc := pc } } ∧
    exec (.ldx m) s = .next { s with regs := { s.regs with x := v, pc := pc } } ∧
    exec (.ldl m) s = .next { s with regs := { s.regs with l := v, pc := pc } } ∧
    exec (.ldb m) s = .next { s with regs := { s.regs with b := v, pc := pc } } ∧
    exec (.lds m) s = .next { s with regs := { s.regs with s := v, pc := pc } } ∧
    exec (.ldt m) s = .next { s with regs := { s.regs with t := v, pc := pc } }

/-- The six word stores (section 3): the register's three bytes, most significant first, at the effective
address the operand resolves to; every other byte and everything but the PC unchanged. That the written memory
is canonical is the model's (notes/assumptions/4.md). -/
def Obligations.WordStoresWriteThreeBytes : Prop :=
  ∀ (m : MemOp) (s : State) (ea : Word), s.mem.wf → resolve m s = .ok (.mem ea) →
    s.InBounds ea.toNat 3 →
    let a := ea.toNat
    ∀ p ∈ [(Instr.sta m, s.regs.a), (.stx m, s.regs.x), (.stl m, s.regs.l), (.stb m, s.regs.b),
        (.sts m, s.regs.s), (.stt m, s.regs.t)],
      ∃ mem, exec p.1 s = .next { s with
          mem := mem, regs := { s.regs with pc := s.regs.pc + BitVec.ofNat 24 m.len } } ∧
        mem.wf ∧
        mem.read a = p.2.extractLsb' 16 8 ∧ mem.read (a + 1) = p.2.extractLsb' 8 8 ∧
        mem.read (a + 2) = p.2.extractLsb' 0 8 ∧
        ∀ b, b < a ∨ a + 3 ≤ b → mem.read b = s.mem.read b

/-- LDCH: A[7:0] takes the byte operand, A[23:8] is kept (R153). -/
def Obligations.LdchReplacesTheLowByteOfA : Prop :=
  ∀ (m : MemOp) (s : State) (c : Byte), ByteOperand m s c →
    ∃ a : Word, a.extractLsb' 8 16 = s.regs.a.extractLsb' 8 16 ∧ a.extractLsb' 0 8 = c ∧
      exec (.ldch m) s = .next { s with
        regs := { s.regs with a := a, pc := s.regs.pc + BitVec.ofNat 24 m.len } }

/-- STCH: one byte, A[7:0], at the effective address the operand resolves to; every other byte unchanged
(R154). That the written memory is canonical is the model's (notes/assumptions/4.md). -/
def Obligations.StchWritesOneByte : Prop :=
  ∀ (m : MemOp) (s : State) (ea : Word), s.mem.wf → resolve m s = .ok (.mem ea) →
    s.InBounds ea.toNat 1 →
    ∃ mem, exec (.stch m) s = .next { s with
        mem := mem, regs := { s.regs with pc := s.regs.pc + BitVec.ofNat 24 m.len } } ∧
      mem.wf ∧ mem.read ea.toNat = s.regs.a.extractLsb' 0 8 ∧
      ∀ b, b ≠ ea.toNat → mem.read b = s.mem.read b

/-- ADD, SUB and MUL: A takes the sum, difference or product modulo 2^24, with no flag
(spec/42_arithmetic.md R170 to R173). -/
def Obligations.AddSubMulWrapModulo : Prop :=
  ∀ (m : MemOp) (s : State) (v : Word), WordOperand m s v →
    let pc := s.regs.pc + BitVec.ofNat 24 m.len
    exec (.add m) s = .next { s with regs := { s.regs with a := s.regs.a + v, pc := pc } } ∧
    exec (.sub m) s = .next { s with regs := { s.regs with a := s.regs.a - v, pc := pc } } ∧
    exec (.mul m) s = .next { s with regs := { s.regs with a := s.regs.a * v, pc := pc } }

/-- DIV by a nonzero operand: A takes the signed quotient truncated toward zero, and -2^23 / -1 wraps to
0x800000 (R170, R174; truncation is the spec's passage GK4, notes/assumptions/28.md). -/
def Obligations.DivTruncatesTowardZero : Prop :=
  ∀ (m : MemOp) (s : State) (v : Word), WordOperand m s v → v ≠ 0#24 →
    ∃ q : Word,
      exec (.div m) s = .next { s with
        regs := { s.regs with a := q, pc := s.regs.pc + BitVec.ofNat 24 m.len } } ∧
      (s.regs.a = 0x800000#24 ∧ v = 0xFFFFFF#24 → q = 0x800000#24) ∧
      (¬ (s.regs.a = 0x800000#24 ∧ v = 0xFFFFFF#24) → q.toInt = Int.tdiv s.regs.a.toInt v.toInt)

/-- ADDR, SUBR and MULR: x[r2] takes x[r2] op x[r1] modulo 2^24, for every pair of indices; the next-PC
commit follows the write, so a write to index 8 is lost (R175 to R178; what a read or write of an index does
is `RegisterFileReadsWhatWasWritten`; the direction is the spec's passage GK7, notes/assumptions/6.md). -/
def Obligations.AddrSubrMulrWriteTheSecondRegister : Prop :=
  ∀ (r1 r2 : RegNo) (s : State),
    let p := s.params.reg67
    let u := s.regs.read p r2
    let v := s.regs.read p r1
    let pc := s.regs.pc + 2#24
    exec (.addr r1 r2) s = .next { s with regs := { s.regs.write p r2 (u + v) with pc := pc } } ∧
    exec (.subr r1 r2) s = .next { s with regs := { s.regs.write p r2 (u - v) with pc := pc } } ∧
    exec (.mulr r1 r2) s = .next { s with regs := { s.regs.write p r2 (u * v) with pc := pc } }

/-- DIVR by a nonzero register: x[r2] takes the truncated signed quotient (R170, R179; GK4 and GK7,
notes/assumptions/28.md and 6.md). -/
def Obligations.DivrTruncatesTowardZero : Prop :=
  ∀ (r1 r2 : RegNo) (s : State),
    let p := s.params.reg67
    let u := s.regs.read p r2
    let v := s.regs.read p r1
    v ≠ 0#24 →
    ∃ q : Word,
      exec (.divr r1 r2) s =
        .next { s with regs := { s.regs.write p r2 q with pc := s.regs.pc + 2#24 } } ∧
      (u = 0x800000#24 ∧ v = 0xFFFFFF#24 → q = 0x800000#24) ∧
      (¬ (u = 0x800000#24 ∧ v = 0xFFFFFF#24) → q.toInt = Int.tdiv u.toInt v.toInt)

/-- RMO copies x[r1] to x[r2] and CLEAR writes 0 to x[r1]; a write to index 8 is lost (R180, R181;
GK7, notes/assumptions/6.md). -/
def Obligations.RmoCopiesAndClearZeroes : Prop :=
  ∀ (r1 r2 : RegNo) (s : State),
    let p := s.params.reg67
    let pc := s.regs.pc + 2#24
    exec (.rmo r1 r2) s =
      .next { s with regs := { s.regs.write p r2 (s.regs.read p r1) with pc := pc } } ∧
    exec (.clear r1) s = .next { s with regs := { s.regs.write p r1 0#24 with pc := pc } }

/-- COMP and COMPR: SW takes LT, EQ or GT of the signed comparison, and nothing but SW and the PC changes
(spec/43_compare.md R200 to R203; COMPR compares r1 with r2 by GK7, notes/assumptions/6.md). -/
def Obligations.CompareSetsTheSignedCode : Prop :=
  ∀ (s : State),
    let code := fun (a b : Word) => if a.slt b then 0x000001#24 else if a = b then 0x000000#24 else 0x000002#24
    (∀ m v, WordOperand m s v → exec (.comp m) s = .next { s with
      regs := { s.regs with sw := code s.regs.a v, pc := s.regs.pc + BitVec.ofNat 24 m.len } }) ∧
    (∀ r1 r2, exec (.compr r1 r2) s = .next { s with
      regs := { s.regs with
        sw := code (s.regs.read s.params.reg67 r1) (s.regs.read s.params.reg67 r2),
        pc := s.regs.pc + 2#24 } })

/-- TIX: X is incremented modulo 2^24 and SW takes the code of the incremented X against the operand, which
was resolved with the old X (R204). -/
def Obligations.TixIncrementsThenCompares : Prop :=
  ∀ (m : MemOp) (s : State) (v : Word), WordOperand m s v →
    let x := s.regs.x + 1#24
    exec (.tix m) s = .next { s with
      regs := { s.regs with
        x := x
        sw := if x.slt v then 0x000001#24 else if x = v then 0x000000#24 else 0x000002#24
        pc := s.regs.pc + BitVec.ofNat 24 m.len } }

/-- TIXR: X is incremented and compared with x[r1], which for r1 = 1 is the incremented X, so that `TIXR X`
gives EQ; the old SW is what r1 = 9 compares with (R205). That X is index 1 is the spec's passage GK3
(notes/assumptions/6.md). -/
def Obligations.TixrIncrementsThenCompares : Prop :=
  ∀ (r1 : RegNo) (s : State),
    let x := s.regs.x + 1#24
    let w := s.regs.read s.params.reg67 r1
    exec (.tixr r1) s = .next { s with
      regs := { s.regs with
        x := x
        sw := if r1 = 1#4 then 0x000000#24
          else if x.slt w then 0x000001#24 else if x = w then 0x000000#24 else 0x000002#24
        pc := s.regs.pc + 2#24 } }

/-- J and JSUB go to the effective address, whatever it is; JSUB also saves the address of the next
instruction in L (spec/44_control.md R220, R225). -/
def Obligations.JumpAndCallGoToTheAddress : Prop :=
  ∀ (m : MemOp) (s : State) (t : Word), resolve m s = .ok (.mem t) →
    exec (.j m) s = .next { s with regs := { s.regs with pc := t } } ∧
    exec (.jsub m) s = .next { s with
      regs := { s.regs with l := s.regs.pc + BitVec.ofNat 24 m.len, pc := t } }

/-- The conditional jumps: taken exactly when the whole of SW equals the code, any other SW taking none of
the three; immediate addressing is rejected whether or not the condition holds (R221 to R224). -/
def Obligations.ConditionalJumpsTestTheWholeOfSw : Prop :=
  ∀ (m : MemOp) (s : State),
    ∀ p ∈ [(Instr.jeq m, 0x000000#24), (.jlt m, 0x000001#24), (.jgt m, 0x000002#24)],
      (∀ t, resolve m s = .ok (.mem t) → s.regs.sw = p.2 →
        exec p.1 s = .next { s with regs := { s.regs with pc := t } }) ∧
      (∀ t, resolve m s = .ok (.mem t) → s.regs.sw ≠ p.2 →
        exec p.1 s = .next { s with
          regs := { s.regs with pc := s.regs.pc + BitVec.ofNat 24 m.len } }) ∧
      (m.n = false → m.i = true → exec p.1 s = .fault (.errorHalt .immediateNotAllowed))

/-- RSUB, once its operand resolves, jumps to L under `RSUB_POLICY = JUMP_L` and halts normally, with no
change, under `HALT` (R226). -/
def Obligations.RsubJumpsToLOrHalts : Prop :=
  ∀ (m : MemOp) (s : State) (d : Addressing), resolve m s = .ok d →
    (s.params.rsub = .jumpL →
      exec (.rsub m) s = .next { s with regs := { s.regs with pc := s.regs.l } }) ∧
    (s.params.rsub = .halt → exec (.rsub m) s = .fault .normalHalt)

/-- TD: SW is LT or EQ by the device's answer; no byte is output (spec/45_device_io.md R244). -/
def Obligations.TdSetsReadiness : Prop :=
  ∀ (m : MemOp) (s : State) (id : Byte), ByteOperand m s id →
    ∃ d : Devices, d.output = s.dev.output ∧ d.known = s.dev.known ∧ d.reads = s.dev.reads ∧
      d.writes = s.dev.writes ∧
      exec (.td m) s = .next { s with
        dev := d
        regs := { s.regs with
          sw := if s.dev.testAnswer id then 0x000001#24 else 0x000000#24
          pc := s.regs.pc + BitVec.ofNat 24 m.len } }

/-- RD: A[7:0] takes the byte read, or 0 at end of stream or on failure; A[23:8] is kept (R245). The byte
read is free: the statement holds for every answer. -/
def Obligations.RdReplacesTheLowByteOfA : Prop :=
  ∀ (m : MemOp) (s : State) (id : Byte), ByteOperand m s id →
    ∃ (d : Devices) (a : Word), d.output = s.dev.output ∧ d.known = s.dev.known ∧
      d.tests = s.dev.tests ∧ d.writes = s.dev.writes ∧
      a.extractLsb' 8 16 = s.regs.a.extractLsb' 8 16 ∧
      (∀ b, s.dev.readAnswer id = some b → a.extractLsb' 0 8 = b) ∧
      (s.dev.readAnswer id = none → a.extractLsb' 0 8 = 0x00#8) ∧
      exec (.rd m) s = .next { s with
        dev := d, regs := { s.regs with a := a, pc := s.regs.pc + BitVec.ofNat 24 m.len } }

/-- WD: the output history gains A[7:0] for the device when the write succeeds, and then the file exists; a
failed write changes neither; no register but the PC changes either way (R246, R243). That a write can fail,
and that a failed one leaves no output, is the model's reading (notes/assumptions/11.md). -/
def Obligations.WdOutputsTheLowByteOfA : Prop :=
  ∀ (m : MemOp) (s : State) (id : Byte), ByteOperand m s id →
    let b := s.regs.a.extractLsb' 0 8
    ∃ d : Devices, d.tests = s.dev.tests ∧ d.reads = s.dev.reads ∧
      (s.dev.writeOk id b = true → d.output = s.dev.output ++ [(id, b)] ∧
        (3 ≤ id.toNat → d.fileExists id = true)) ∧
      (s.dev.writeOk id b = false → d.output = s.dev.output ∧ d.known = s.dev.known) ∧
      exec (.wd m) s = .next { s with
        dev := d, regs := { s.regs with pc := s.regs.pc + BitVec.ofNat 24 m.len } }

/-- The console ids 0x00 to 0x02 always test ready, whatever the host has lined up (R242); a missing device
file tests not ready and reads as end of stream, without a halt (R243). -/
def Obligations.ConsoleIsReadyAndMissingFileIsNot : Prop :=
  ∀ (m : MemOp) (s : State) (id : Byte), ByteOperand m s id →
    (id.toNat ≤ 2 → ∃ t, exec (.td m) s = .next t ∧ t.regs.sw = 0x000001#24) ∧
    (3 ≤ id.toNat → s.dev.fileExists id = false →
      (∃ t, exec (.td m) s = .next t ∧ t.regs.sw = 0x000000#24) ∧
      (∃ t, exec (.rd m) s = .next t ∧ t.regs.a = s.regs.a.extractLsb' 8 16 ++ 0x00#8))

/-! ### Where instructions halt -/

/-- A pointer outside memory halts every format-3/4 instruction, RSUB among them, before any other check
(spec/40_addressing.md R110, R122). -/
def Obligations.BadPointerHaltsEveryFormat34Instruction : Prop :=
  ∀ (i : Instr) (m : MemOp) (s : State), i.memOp? = some m → m.n = true → m.i = false →
    ¬ s.InBounds (targetAddress m s).toNat 3 → exec i s = .fault (.errorHalt .indirectBounds)

/-- A store, J, JEQ, JLT, JGT or JSUB with immediate addressing is an error halt (R128, R129). -/
def Obligations.ImmediateIsRejectedWhereAnAddressIsNeeded : Prop :=
  ∀ (i : Instr) (m : MemOp) (s : State), i.memOp? = some m → needsAddress i = true →
    m.n = false → m.i = true → exec i s = .fault (.errorHalt .immediateNotAllowed)

/-- A data operand that is not wholly inside memory is an error halt, for every instruction that reads or
writes one (spec/20_memory.md R57, R58). -/
def Obligations.OperandOutsideMemoryHalts : Prop :=
  ∀ (i : Instr) (m : MemOp) (s : State) (ea : Word), i.memOp? = some m → resolve m s = .ok (.mem ea) →
    0 < dataWidth i → s.params.memSize < ea.toNat + dataWidth i →
    exec i s = .fault (.errorHalt .memBounds)

/-- DIV and DIVR by zero are error halts (R170). That DIVR's divisor is x[r1] is the spec's passage GK7
(notes/assumptions/6.md). -/
def Obligations.ZeroDivisorHalts : Prop :=
  ∀ s : State,
    (∀ m, WordOperand m s 0#24 → exec (.div m) s = .fault (.errorHalt .divZero)) ∧
    (∀ r1 r2, s.regs.read s.params.reg67 r1 = 0#24 →
      exec (.divr r1 r2) s = .fault (.errorHalt .divZero))

/-- Every instruction completes unless one of the spec's halts applies: an operand that resolves, is allowed
and lies inside memory, a nonzero divisor, and for RSUB the policy `JUMP_L` (R301). That DIVR's divisor is x[r1] is
the spec's passage GK7 (notes/assumptions/6.md). -/
def Obligations.EveryInstructionCompletesOutsideTheNamedHalts : Prop :=
  ∀ (i : Instr) (s : State),
    (∀ m, i.memOp? = some m →
      (∃ v, resolve m s = .ok (.imm v) ∧ needsAddress i = false) ∨
        (∃ ea, resolve m s = .ok (.mem ea) ∧
          (dataWidth i = 0 ∨ s.InBounds ea.toNat (dataWidth i)))) →
    (∀ m, i = .div m → ¬ WordOperand m s 0#24) →
    (∀ r1 r2, i = .divr r1 r2 → s.regs.read s.params.reg67 r1 ≠ 0#24) →
    (i.op = .rsub → s.params.rsub = .jumpL) →
    ∃ t, exec i s = .next t

/-- An instruction that does not complete ends in one of the halts the spec gives that instruction, and none
is refused (R301). -/
def Obligations.HaltsAreTheOnesTheSpecNames : Prop :=
  ∀ (i : Instr) (s : State),
    (∃ t, exec i s = .next t) ∨
    (∃ m, i.memOp? = some m ∧ exec i s = .fault (.errorHalt .indirectBounds)) ∨
    (needsAddress i = true ∧ exec i s = .fault (.errorHalt .immediateNotAllowed)) ∨
    (0 < dataWidth i ∧ exec i s = .fault (.errorHalt .memBounds)) ∨
    ((i.op = .div ∨ i.op = .divr) ∧ exec i s = .fault (.errorHalt .divZero)) ∨
    (i.op = .rsub ∧ s.params.rsub = .halt ∧ exec i s = .fault .normalHalt)

/-! ### Frames -/

/-- No instruction changes a register but those it writes and the PC (spec/10_state.md R24, R28). Which those are
each instruction's own rule says: spec/41_load_store.md sections 1 to 4, spec/42_arithmetic.md sections 2 and 3,
spec/43_compare.md section 2, spec/44_control.md sections 1 and 2, spec/45_device_io.md section 2. That ADDR, SUBR,
MULR, DIVR and RMO write r2 (R175 to R180) is the spec's passage GK7, and the numbers of A, X, L, B, S and T are GK3
(notes/assumptions/6.md, PRESUMED). -/
def Obligations.RegistersChangeOnlyWhereWritten : Prop :=
  ∀ (i : Instr) (s t : State) (k : RegNo), exec i s = .next t → k ∉ writtenRegs i → k ≠ 8#4 →
    t.regs.read t.params.reg67 k = s.regs.read s.params.reg67 k

/-- No instruction changes a byte of memory outside the bytes it stores to, at the address the meaning itself
computes; an instruction that stores nothing changes no byte (spec/20_memory.md R58). -/
def Obligations.MemoryChangesOnlyWhereStored : Prop :=
  ∀ (i : Instr) (s t : State) (b : Nat), s.mem.wf → exec i s = .next t →
    (∀ a n, storeRange i s = some (a, n) → b < a ∨ a + n ≤ b) → t.mem.read b = s.mem.read b

/-- No instruction touches F, the program's metadata, the controller's flags, counter or log (R25, R31, R32), or
a parameter (R7); only TD, RD and WD touch the device side (R61 and spec/45_device_io.md section 2). That the
parameters stand in State is the model's (notes/assumptions/1.md), and so is the form of the device side
(notes/assumptions/10.md); that only run counts steps is DEDUCED (notes/assumptions/24.md). -/
def Obligations.InstructionsLeaveTheRestAlone : Prop :=
  ∀ (i : Instr) (s t : State), exec i s = .next t →
    t.f = s.f ∧ t.prog = s.prog ∧ t.ready = s.ready ∧ t.retFlag = s.retFlag ∧ t.steps = s.steps ∧
    t.log = s.log ∧ t.params = s.params ∧ (touchesDevice i = false → t.dev = s.dev)

/-- No instruction reads F: with another value in F it ends the same way, and leaves that value there
(R25). -/
def Obligations.NoInstructionReadsF : Prop :=
  ∀ (i : Instr) (s : State) (v : BitVec 64),
    (∀ t, exec i s = .next t → exec i { s with f := v } = .next { t with f := v }) ∧
    (∀ w, exec i s = .fault w → exec i { s with f := v } = .fault w)

/-! ### The controller -/

/-- When the bytes at the PC decode to an instruction, the step is that instruction's meaning, with the
controller's commit or halt around it (spec/60_exceptions.md R310, R311). What a log entry holds is the model's
(notes/assumptions/14.md, 15.md), and so is that the parameters stand in State (notes/assumptions/1.md); that a step
leaves `steps` alone is DEDUCED (notes/assumptions/24.md). -/
def Obligations.StepRunsTheDecodedInstruction : Prop :=
  ∀ (s : State) (bytes rest : List Byte) (i : Instr), s.runnable → fetch s = .ok bytes →
    decodeWith s.params.opcodeMap bytes = .ok (i, rest) →
    let ea := reportedEa i s
    let stop := fun o => Host.Outcome.fault (ρ := Refusal) (Fault.stopped o { s with
      ready := false, log := s.log ++ [.engineHalt o ⟨s.regs.pc, bytes, ea⟩] })
    (∀ t, exec i s = .next t → step s = .next { t with
      retFlag := decide (i.op = .rsub), log := s.log ++ [.executed s.regs.pc i ea] }) ∧
    (∀ k, exec i s = .fault (.errorHalt k) → step s = stop (.errorHalt k)) ∧
    (exec i s = .fault .normalHalt → step s = stop .normalHalt)

/-- An opcode outside the map is an error halt after the operand is resolved: a bad pointer is reported
first, and otherwise the unknown opcode, with nothing changed but `ready` and the log (R91, R305).
That `steps` is among what is left is DEDUCED (notes/assumptions/24.md), and that the
parameters stand in State is the model's (notes/assumptions/1.md). -/
def Obligations.UnknownOpcodeHaltsAfterResolving : Prop :=
  ∀ (s : State) (bytes : List Byte) (op : OpCode) (m : MemOp), s.runnable → fetch s = .ok bytes →
    decodeWith s.params.opcodeMap bytes = .error (.unknownOpcode op m) →
    ∃ t, SameButReadyAndLog s t ∧ t.ready = false ∧
      (resolve m s = .error .indirectBounds →
        step s = .fault (.stopped (.errorHalt .indirectBounds) t)) ∧
      (∀ d, resolve m s = .ok d → step s = .fault (.stopped (.errorHalt .unknownOpcode) t))

/-- Exactly the 27 opcode values of R91 are unknown under the default map, whose numbers are GK1
(notes/assumptions/5.md). -/
def Obligations.UnknownOpcodesAreTheTwentySeven : Prop :=
  ∀ op : OpCode, standardOpcodeMap.opOf op = none ↔
    op.toNat * 4 ∈ [0x40, 0x44, 0x58, 0x5C, 0x60, 0x64, 0x70, 0x80, 0x88, 0x8C, 0xA4, 0xA8, 0xB0, 0xBC,
      0xC0, 0xC4, 0xC8, 0xCC, 0xD0, 0xD4, 0xE4, 0xE8, 0xEC, 0xF0, 0xF4, 0xF8, 0xFC]

/-- The checks before the engine, in their order (R305, R310): not ready changes nothing; a PC outside the
program range halts, classified by the policy; then the fetch's own halt. Nothing but `ready` and the log changes:
that `steps` is among it is DEDUCED (notes/assumptions/24.md), and that the parameters stand in State is the model's
(notes/assumptions/1.md). -/
def Obligations.ControllerChecksComeFirst : Prop :=
  ∀ s : State,
    (s.ready = false → step s = .fault (.stopped .notReady s)) ∧
    (s.ready = true → ¬ s.inProgramRange s.regs.pc →
      ∃ o e, step s = .fault (.stopped o { s with ready := false, log := s.log ++ [e] }) ∧
        (s.params.boundsHalt = .rsubNormal →
          o = if s.retFlag then .normalHalt else .errorHalt .pcRange) ∧
        (s.params.boundsHalt = .alwaysNormal → o = .normalHalt) ∧
        (s.params.boundsHalt = .alwaysError → o = .errorHalt .pcRange)) ∧
    (s.runnable → ∀ k, fetch s = .error k →
      ∃ e, step s = .fault (.stopped (.errorHalt k) { s with ready := false, log := s.log ++ [e] }))

/-- Every step continues or stops: it answers a next state, ready, or the controller's stop; never a bare
engine result and never a refusal (R300, R310). -/
def Obligations.StepContinuesOrStops : Prop :=
  ∀ s : State, (∃ t, step s = .next t ∧ t.ready = true) ∨
    (∃ o t, step s = .fault (.stopped o t) ∧ t.ready = false ∧ o ≠ .ceiling)

/-- A stop is precise (R302, R304): no register, memory byte or device is changed, and the PC is not
advanced; one entry joins the log, or none when the controller was not ready (R310). That a step leaves `steps` alone
is DEDUCED (R310 to R312, notes/assumptions/24.md), and that the parameters of R7 stand in State is the model's
(notes/assumptions/1.md). -/
def Obligations.StopsArePrecise : Prop :=
  ∀ (s t : State) (o : StopOutcome), step s = .fault (.stopped o t) →
    SameButReadyAndLog s t ∧ (s.ready = false → t = s) ∧
    (s.ready = true → ∃ e, t.log = s.log ++ [e])

/-- A step that continues ran exactly one decoded instruction: `ret_flag` records whether it was RSUB, and the
log gains one entry with its address and effective address (R311, R314; the effective address is recomputed,
notes/assumptions/15.md). -/
def Obligations.ContinuingStepCommitsOneInstruction : Prop :=
  ∀ s t : State, step s = .next t →
    s.runnable ∧ ∃ bytes i u, fetch s = .ok bytes ∧
      decodeWith s.params.opcodeMap bytes = .ok (i, []) ∧ exec i s = .next u ∧
      t.regs = u.regs ∧ t.mem = u.mem ∧ t.dev = u.dev ∧
      (t.retFlag = true ↔ i.op = .rsub) ∧
      t.log = s.log ++ [.executed s.regs.pc i (reportedEa i s)]

/-- INVARIANT: from every state with canonical memory that holds only bytes that exist, the state a step
leaves, continuing or stopped, is such a state. The canonical form is the model's (notes/assumptions/4.md). -/
def Obligations.StepKeepsMemoryCanonicalAndWithinBounds : Prop :=
  ∀ s t : State, s.Inv → Leaves (step s) t → t.Inv

/-- The invariant holds after reset; its canonical form is the model's (notes/assumptions/4.md). -/
def Obligations.ResetMemoryIsCanonicalAndWithinBounds : Prop := State.reset.Inv

/-- No step changes F, the program's metadata (spec/10_state.md R25, R31), the count of the run's steps or a
parameter, whether it continues or stops. That a single step does not count is DEDUCED
(spec/60_exceptions.md R310 to R312, notes/assumptions/24.md), and that the parameters of R7 stand in State is the
model's (notes/assumptions/1.md). -/
def Obligations.StepKeepsFMetadataAndParameters : Prop :=
  ∀ s t : State, Leaves (step s) t →
    t.f = s.f ∧ t.prog = s.prog ∧ t.steps = s.steps ∧ t.params = s.params

/-- The output history only grows: the state a step leaves has the earlier history as its beginning, and at
most one byte more (spec/45_device_io.md R240; a failed write adds none, notes/assumptions/11.md). -/
def Obligations.OutputHistoryOnlyGrows : Prop :=
  ∀ s t : State, Leaves (step s) t → t.dev.output = s.dev.output ∨
    ∃ id b, t.dev.output = s.dev.output ++ [(id, b)]

/-- Normal termination (spec/44_control.md R226, R303): under the default policies, after a step that ran
RSUB with L outside the program range, the next step is NORMAL_HALT with the PC still at that address. -/
def Obligations.RsubOutOfRangeEndsTheRunNormally : Prop :=
  ∀ (s t : State) (bytes rest : List Byte) (m : MemOp), s.params.rsub = .jumpL →
    s.params.boundsHalt = .rsubNormal → fetch s = .ok bytes →
    decodeWith s.params.opcodeMap bytes = .ok (.rsub m, rest) → step s = .next t →
    ¬ s.inProgramRange s.regs.l →
    ∃ u, step t = .fault (.stopped .normalHalt u) ∧ u.ready = false ∧ u.regs = t.regs ∧
      u.regs.pc = s.regs.l

/-- `run()` always ends in a Stop, after at most `RUN_CEILING` calls of step; CEILING means exactly that many
were made and leaves the controller ready (R312; what `steps` counts is DEDUCED, notes/assumptions/24.md). -/
def Obligations.RunStopsWithinTheCeiling : Prop :=
  ∀ s : State, ∃ o t, s.run = .fault (.stopped o t) ∧ t.steps ≤ s.params.runCeiling ∧
    (o = .ceiling → t.steps = s.params.runCeiling ∧ (s.ready = true → t.ready = true)) ∧
    (o ≠ .ceiling → t.ready = false)

/-- `init()` (R313): the PC takes the entry address, the controller becomes ready, `ret_flag` and `steps` are
cleared, and nothing else changes. -/
def Obligations.InitStartsAtTheEntry : Prop :=
  ∀ s : State, s.init = { s with
    regs := { s.regs with pc := s.prog.entry }, ready := true, retFlag := false, steps := 0 }

/-- `reset()` (R330): every piece of the block's state takes the value of spec/10_state.md R34, the parameters
and the host's devices stay, and the machine right after reset is such a state. That +0.0 is 64 zero bits, and that
the output history stays, are the model's (notes/assumptions/7.md, 25.md), and so is that the parameters stand in
State (notes/assumptions/1.md). -/
def Obligations.ResetLeavesTheValuesOfTheTable : Prop :=
  (∀ s : State,
    let t := s.hostReset
    t.regs =
      { a := 0#24, x := 0#24, l := 0#24, b := 0#24, s := 0#24, t := 0#24, r6 := 0#24, r7 := 0#24,
        pc := 0#24, sw := 0#24 } ∧ t.f = 0#64 ∧ (∀ a, t.mem.read a = 0x00#8) ∧
    t.prog.progName = [] ∧ t.prog.headerAddr = 0#24 ∧ t.prog.totalLength = 0#24 ∧
    t.prog.loadBase = s.params.loadBase ∧ t.prog.entry = s.params.loadBase ∧
    t.ready = false ∧ t.retFlag = false ∧ t.steps = 0 ∧ t.log = [] ∧
    t.params = s.params ∧ t.dev = s.dev) ∧
  State.reset.hostReset = State.reset

/-! ### The loader -/

/-- A text record whose bytes all exist is written at the section's address plus its own, first byte lowest,
and changes no other byte; one whose bytes do not is reported and writes none (spec/50_loader.md R271; for a count
of 0 see notes/assumptions/20.md). -/
def Obligations.TextRecordIsWrittenWhollyOrNotAtAll : Prop :=
  ∀ (size n : Nat) (l : Loader) (start : Word) (bytes : List Byte), l.mem.wf →
    let base := (l.csAddr + start).toNat
    let l' := l.onText size n start bytes
    (base + bytes.length ≤ size →
      l'.report = l.report ∧
      (∀ j (h : j < bytes.length), l'.mem.read (base + j) = bytes[j]) ∧
      ∀ b, b < base ∨ base + bytes.length ≤ b → l'.mem.read b = l.mem.read b) ∧
    (size < base + bytes.length → l' = { l with report := l.report ++ [.line n .bounds] })

/-- Relocation of one field (R276, R285): a width of 5 keeps the high nibble of the first byte and adds or
subtracts the symbol's absolute address modulo 2^20, a width of 6 modulo 2^24; the three bytes change, and no
other byte and nothing else of the loader: not the report, the symbol table (R272), the buffer, the entry, the total
or an address. -/
def Obligations.RelocationEditsOnlyItsField : Prop :=
  ∀ (size k : Nat) (l : Loader) (e : ModEntry) (sym : Word), l.mem.wf →
    lookupSymbol l.estab e.sym = some sym → (e.cs + e.rel).toNat + 3 ≤ size →
    let a := (e.cs + e.rel).toNat
    let v := (l.mem.readWord a).toNat
    let l' := l.applyEntry size k e
    let v' := (l'.mem.readWord a).toNat
    l' = { l with mem := l'.mem } ∧
    (∀ b, b < a ∨ a + 3 ≤ b → l'.mem.read b = l.mem.read b) ∧
    (e.width = .five → v' / 2 ^ 20 = v / 2 ^ 20 ∧
      (e.op = .plus → v' % 2 ^ 20 = (v + sym.toNat) % 2 ^ 20) ∧
      (e.op = .minus → (v' + sym.toNat) % 2 ^ 20 = v % 2 ^ 20)) ∧
    (e.width = .six →
      (e.op = .plus → v' = (v + sym.toNat) % 2 ^ 24) ∧
      (e.op = .minus → (v' + sym.toNat) % 2 ^ 24 = v))

/-- An unresolved symbol, and a target outside memory, are reported and change nothing else, and the entries
after them still apply (R277). -/
def Obligations.BadRelocationIsReportedAndSkipped : Prop :=
  ∀ (size k : Nat) (l : Loader) (e : ModEntry) (rest : List ModEntry),
    (lookupSymbol l.estab e.sym = none →
      Loader.applyAll size k l (e :: rest) =
        Loader.applyAll size (k + 1) { l with report := l.report ++ [.entry k .unresolved] } rest) ∧
    (∀ a, lookupSymbol l.estab e.sym = some a → size < (e.cs + e.rel).toNat + 3 →
      Loader.applyAll size k l (e :: rest) =
        Loader.applyAll size (k + 1) { l with report := l.report ++ [.entry k .bounds] } rest)

/-- A D record that comes after the M record that uses its symbol relocates as one that comes before it
(R273). -/
def Obligations.DefinitionsMayFollowTheirUses : Prop :=
  ∀ (size n n' : Nat) (l : Loader) (groups : List DefGroup) (rel : Word) (w : ModWidth) (op : ModOp)
    (sym : Text) (later : List Text),
    ((Loader.scan size n' ((l.onModify rel w op sym).onDefine n groups) later).finalize size) =
      ((Loader.scan size n' ((l.onDefine n groups).onModify rel w op sym) later).finalize size)

/-- Sections are contiguous and placed by the running load address, never by their declared start; a symbol
of a D record gets the section's address plus its own. Every E record ends its section; the first that is not
malformed sets the entry, to the section's address plus its own or, with no address, to the section's address, and
later ones do not; a malformed one is reported and leaves the entry unset (R263, R264, R265, R269, R270). That a
malformed address is reported when the entry is already set too, and that a field too short for six hex digits, as in
the line E0002, is malformed and not absent, are DEDUCED from R263 and R269 (notes/assumptions/17.md). -/
def Obligations.SectionsArePlacedOneAfterAnother : Prop :=
  (∀ (n : Nat) (l : Loader) (name name' sym : Text) (start start' len len' rel a : Word),
    let first := (l.onHeader name start len).onDefine n [some (sym, rel)]
    first.csAddr = l.nextAddr ∧ lookupSymbol first.estab sym = some (l.nextAddr + rel) ∧
    (∀ field,
      let ended := first.onEnd n field
      let second := ended.onHeader name' start' len'
      ended.total = l.total + len ∧ ended.mem = l.mem ∧
      ended.report = (if field = .bad then l.report ++ [.line n .malformed] else l.report) ∧
      second.csAddr = l.nextAddr + len ∧ lookupSymbol second.estab name' = some (l.nextAddr + len) ∧
      (l.entrySet = true → ended.entrySet = true ∧ ended.entry = l.entry) ∧
      ∀ later, ended.entrySet = true → (second.onEnd n later).entry = ended.entry) ∧
    (l.entrySet = false →
      (first.onEnd n (.address a)).entry = l.nextAddr + a ∧ (first.onEnd n (.address a)).entrySet = true ∧
      (first.onEnd n .absent).entry = l.nextAddr ∧ (first.onEnd n .absent).entrySet = true ∧
      (first.onEnd n .bad).entry = l.entry ∧ (first.onEnd n .bad).entrySet = false)) ∧
  parseRecord ['E'] = .finish .absent ∧ parseRecord "E      ".toList = .finish .absent ∧
  parseRecord "E00002d".toList = .finish (.address 0x2D#24) ∧ parseRecord "E0002".toList = .finish .bad ∧
  parseRecord "E00002G".toList = .finish .bad

/-- A load keeps the state's invariant and touches memory and the published metadata only: no register, no F,
no flag, no counter, no log entry, no device (R281). It publishes the total and the entry that the scan of all the
lines left, LOAD_BASE, and the name and declared start of the first valid H record (R280). The invariant's canonical
form is the model's (notes/assumptions/4.md), and so are what a file with no H record publishes
(notes/assumptions/18.md) and that the parameters stand in State (notes/assumptions/1.md). -/
def Obligations.LoadTouchesOnlyMemoryAndMetadata : Prop :=
  ∀ (s : State) (lines : List Text),
    let t := (s.load lines).1
    let scanned := Loader.scan s.params.memSize 1 (Loader.start s.params s.mem) lines
    let firstHeader := lines.findSome? (fun line => (parseRecord (stripTerminator line)).headerFields)
    (s.Inv → t.Inv) ∧ t.regs = s.regs ∧ t.f = s.f ∧ t.ready = s.ready ∧ t.retFlag = s.retFlag ∧
    t.steps = s.steps ∧ t.log = s.log ∧ t.dev = s.dev ∧ t.params = s.params ∧
    t.mem = (scanned.finalize s.params.memSize).mem ∧
    (s.load lines).2 = (scanned.finalize s.params.memSize).report ∧
    t.prog.totalLength = scanned.total ∧ t.prog.entry = scanned.entry ∧
    t.prog.loadBase = s.params.loadBase ∧
    (∀ name start, firstHeader = some (name, start) →
      t.prog.progName = name ∧ t.prog.headerAddr = start) ∧
    (firstHeader = none →
      t.prog.progName = s.prog.progName ∧ t.prog.headerAddr = s.prog.headerAddr)
end

