-- ==== Sys2Proof/Laws/Decode.lean ====
section
/-! SUPPORT. What the bytes of an encoding are, and what the opcode map answers (spec/30_encoding.md R82 to R89). -/

namespace Sys2Proof

/-! ### The opcode map -/

/-- An entry that opOf finds is in the map. -/
theorem OpcodeMap.mem_of_opOf {map : OpcodeMap} {c : OpCode} {o : Op} (h : map.opOf c = some o) :
    (c, o) ∈ map := by
  induction map with
  | nil => simp [OpcodeMap.opOf] at h
  | cons d map ih =>
    obtain ⟨c', o'⟩ := d
    simp only [OpcodeMap.opOf] at h
    split at h
    · simp_all
    · exact List.mem_cons_of_mem _ (ih h)

/-- Where no opcode repeats, every entry is found. -/
theorem OpcodeMap.opOf_of_mem {map : OpcodeMap} {c : OpCode} {o : Op} (hd : (map.map Prod.fst).Nodup)
    (h : (c, o) ∈ map) : map.opOf c = some o := by
  induction map with
  | nil => simp at h
  | cons d map ih =>
    obtain ⟨c', o'⟩ := d
    simp only [List.map_cons, List.nodup_cons] at hd
    simp only [OpcodeMap.opOf]
    rcases List.mem_cons.1 h with h | h
    · simp_all
    · rw [if_neg, ih hd.2 h]
      rintro rfl
      exact hd.1 (List.mem_map_of_mem h)

/-- An opcode that codeOf finds is in the map. -/
theorem OpcodeMap.mem_of_codeOf {map : OpcodeMap} {c : OpCode} {o : Op} (h : map.codeOf o = some c) :
    (c, o) ∈ map := by
  induction map with
  | nil => simp [OpcodeMap.codeOf] at h
  | cons d map ih =>
    obtain ⟨c', o'⟩ := d
    simp only [OpcodeMap.codeOf] at h
    split at h
    · simp_all
    · exact List.mem_cons_of_mem _ (ih h)

/-- An operation that some entry names has an opcode. -/
theorem OpcodeMap.codeOf_of_mem {map : OpcodeMap} {o : Op} (h : o ∈ map.map Prod.snd) :
    ∃ c, map.codeOf o = some c := by
  induction map with
  | nil => simp at h
  | cons d map ih =>
    obtain ⟨c', o'⟩ := d
    simp only [OpcodeMap.codeOf]
    split
    · exact ⟨_, rfl⟩
    · rename_i hne
      simp only [List.map_cons, List.mem_cons] at h
      exact ih (h.resolve_left (Ne.symm hne))

/-- Every operation is listed. -/
theorem Op.mem_all (o : Op) : o ∈ Op.all := by cases o <;> decide

/-- In a well-formed map every operation has an opcode, and that opcode selects it. -/
theorem OpcodeMap.opOf_codeOf {map : OpcodeMap} (h : map.wellFormed = true) (o : Op) :
    ∃ c, map.codeOf o = some c ∧ map.opOf c = some o := by
  simp only [OpcodeMap.wellFormed, OpcodeMap.distinctCodes, OpcodeMap.complete, Bool.and_eq_true,
    decide_eq_true_eq, List.all_eq_true, List.contains_iff_mem] at h
  obtain ⟨c, hc⟩ := OpcodeMap.codeOf_of_mem (h.2 o (Op.mem_all o))
  exact ⟨c, hc, OpcodeMap.opOf_of_mem h.1 (OpcodeMap.mem_of_codeOf hc)⟩

/-- The default map is well-formed. -/
theorem standardOpcodeMap_wellFormed : standardOpcodeMap.wellFormed = true := by decide

/-! ### The bits of an encoding -/

@[simp] theorem opcodeOf_byte0Of (code : OpCode) (hi lo : Bool) : opcodeOf (byte0Of code hi lo) = code := by
  cases hi <;> cases lo <;> revert code <;> decide

@[simp] theorem byte0Of_hi (code : OpCode) (hi lo : Bool) : (byte0Of code hi lo).getLsbD 1 = hi := by
  cases hi <;> cases lo <;> revert code <;> decide

@[simp] theorem byte0Of_lo (code : OpCode) (hi lo : Bool) : (byte0Of code hi lo).getLsbD 0 = lo := by
  cases hi <;> cases lo <;> revert code <;> decide

/-- A byte is its opcode and its two low bits. -/
theorem byte0Of_opcodeOf (b0 : Byte) : byte0Of (opcodeOf b0) (b0.getLsbD 1) (b0.getLsbD 0) = b0 := by
  revert b0; decide

/-- Byte 1 read back. -/
theorem flagsOf_byte1Of (code : OpCode) (m : MemOp) (top : BitVec 4) (field : BitVec 20) :
    flagsOf (byte0Of code m.n m.i) (byte1Of m top) field = { m with field := field } := by
  obtain ⟨n, i, x, b, p, e, f⟩ := m
  simp only [flagsOf, byte0Of_hi, byte0Of_lo, extendedFlag, byte1Of, MemOp.mk.injEq, and_true, true_and]
  revert top
  cases x <;> cases b <;> cases p <;> cases e <;> decide

@[simp] theorem extendedFlag_byte1Of (m : MemOp) (top : BitVec 4) : extendedFlag (byte1Of m top) = m.e := by
  obtain ⟨n, i, x, b, p, e, f⟩ := m
  simp only [extendedFlag, byte1Of]
  revert top
  cases x <;> cases b <;> cases p <;> cases e <;> decide

@[simp] theorem byte1Of_top (m : MemOp) (top : BitVec 4) : (byte1Of m top).extractLsb' 0 4 = top := by
  obtain ⟨n, i, x, b, p, e, f⟩ := m
  simp only [byte1Of]
  revert top
  cases x <;> cases b <;> cases p <;> cases e <;> decide

/-- A byte 1 is its flags and its top nibble. -/
theorem byte1Of_flagsOf (b0 b1 : Byte) (field : BitVec 20) :
    byte1Of (flagsOf b0 b1 field) (b1.extractLsb' 0 4) = b1 := by
  simp only [byte1Of, flagsOf, extendedFlag]
  revert b1; decide

@[simp] theorem reg1Of_append (r1 r2 : RegNo) : reg1Of (r1 ++ r2) = r1 := by
  revert r1 r2; decide

@[simp] theorem reg2Of_append (r1 r2 : RegNo) : reg2Of (r1 ++ r2) = r2 := by
  revert r1 r2; decide

/-- A 20-bit field is its nibble and its two bytes. -/
theorem addr20_of_parts (f : BitVec 20) :
    (f.extractLsb' 16 4 ++ f.extractLsb' 8 8 ++ f.extractLsb' 0 8 : BitVec 20) = f := by
  ext i hi
  simp only [BitVec.getElem_append, BitVec.getElem_extractLsb']
  split
  · simp [BitVec.getLsbD_eq_getElem, hi]
  · split <;> (rw [BitVec.getLsbD_eq_getElem (by omega)]; congr 1; omega)

/-- A 12-bit field is its nibble and its byte. -/
theorem disp12_of_parts (f : BitVec 20) (h : f.toNat < 4096) :
    (0#8 ++ f.extractLsb' 8 4 ++ f.extractLsb' 0 8 : BitVec 20) = f := by
  apply BitVec.eq_of_toNat_eq
  simp only [BitVec.toNat_append, BitVec.extractLsb'_toNat, BitVec.toNat_ofNat, Nat.shiftRight_zero]
  rw [show (0 % 2 ^ 8) <<< 4 = 0 by decide, Nat.zero_or, Nat.shiftLeft_eq, Nat.shiftRight_eq_div_pow]
  rw [show f.toNat / 2 ^ 8 % 2 ^ 4 * 2 ^ 8 = (f.toNat / 2 ^ 8 % 2 ^ 4) <<< 8 by rw [Nat.shiftLeft_eq],
    ← Nat.shiftLeft_add_eq_or_of_lt (by omega), Nat.shiftLeft_eq]
  omega

/-! ### Decoding what was encoded -/

/-- An encoded operand decodes to itself, whatever follows it. -/
theorem decodeMemOp_encodeMem (code : OpCode) (m : MemOp) (rest : List Byte) (h : m.wellFormed = true) :
    ∃ b0 tail, encodeMem code m = b0 :: tail ∧ opcodeOf b0 = code ∧ tail.length + 1 = m.len ∧
      decodeMemOp b0 (tail ++ rest) = some (m, rest) := by
  unfold encodeMem
  cases he : m.e with
  | true =>
    refine ⟨_, _, rfl, by simp, by simp [MemOp.len, he], ?_⟩
    simp only [List.cons_append, List.nil_append, decodeMemOp, extendedFlag_byte1Of, he, if_true,
      flagsOf_byte1Of, addr20Of, byte1Of_top, addr20_of_parts]
    rw [← he]
  | false =>
    simp only [MemOp.wellFormed, he, Bool.false_or, decide_eq_true_eq] at h
    refine ⟨_, _, rfl, by simp, by simp [MemOp.len, he], ?_⟩
    simp only [List.cons_append, List.nil_append, decodeMemOp, extendedFlag_byte1Of, he, if_false,
      flagsOf_byte1Of, disp12Of, byte1Of_top, disp12_of_parts _ h, Bool.false_eq_true]
    rw [← he]

/-- The parts of a joined 20-bit field. -/
theorem addr20_parts (t : BitVec 4) (b2 b3 : Byte) :
    (t ++ b2 ++ b3 : BitVec 20).extractLsb' 16 4 = t ∧ (t ++ b2 ++ b3 : BitVec 20).extractLsb' 8 8 = b2 ∧
      (t ++ b2 ++ b3 : BitVec 20).extractLsb' 0 8 = b3 := by
  refine ⟨?_, ?_, ?_⟩ <;> (ext i hi; simp only [BitVec.getElem_extractLsb', BitVec.getLsbD_append])
  · rw [if_neg (by omega), if_neg (by omega), show 16 + i - 8 - 8 = i by omega, BitVec.getLsbD_eq_getElem]
  · rw [if_neg (by omega), if_pos (by omega), show 8 + i - 8 = i by omega, BitVec.getLsbD_eq_getElem]
  · rw [if_pos (by omega), Nat.zero_add, BitVec.getLsbD_eq_getElem]

/-- The parts of a joined 12-bit field, and its size. -/
theorem disp12_parts (t : BitVec 4) (b2 : Byte) :
    (0#8 ++ t ++ b2 : BitVec 20).extractLsb' 8 4 = t ∧ (0#8 ++ t ++ b2 : BitVec 20).extractLsb' 0 8 = b2 ∧
      (0#8 ++ t ++ b2 : BitVec 20).toNat < 4096 := by
  refine ⟨?_, ?_, ?_⟩
  · ext i hi
    simp only [BitVec.getElem_extractLsb', BitVec.getLsbD_append]
    rw [if_neg (by omega), if_pos (by omega), show 8 + i - 8 = i by omega, BitVec.getLsbD_eq_getElem]
  · ext i hi
    simp only [BitVec.getElem_extractLsb', BitVec.getLsbD_append]
    rw [if_pos (by omega), Nat.zero_add, BitVec.getLsbD_eq_getElem]
  · rw [BitVec.toNat_append, BitVec.toNat_append]
    rw [show (0#8).toNat <<< 4 = 0 by decide, Nat.zero_or, ← Nat.shiftLeft_add_eq_or_of_lt (by omega),
      Nat.shiftLeft_eq]
    omega

/-- An operand that decodes is well-formed, and the bytes it was decoded from are its encoding. -/
theorem encodeMem_of_decodeMemOp {b0 : Byte} {tail rest : List Byte} {m : MemOp}
    (h : decodeMemOp b0 tail = some (m, rest)) :
    m.wellFormed = true ∧ b0 :: tail = encodeMem (opcodeOf b0) m ++ rest := by
  unfold decodeMemOp at h
  split at h
  · rename_i b1 b2 r
    cases he : extendedFlag b1 with
    | true =>
      simp only [he, if_true] at h
      split at h
      · rename_i b3 r'
        simp only [Option.some.injEq, Prod.mk.injEq] at h
        obtain ⟨rfl, rfl⟩ := h
        obtain ⟨h0, h1, h2⟩ := addr20_parts (b1.extractLsb' 0 4) b2 b3
        have hf : ∀ f, (flagsOf b0 b1 f).e = true := fun _ => he
        refine ⟨by simp [MemOp.wellFormed, hf], ?_⟩
        simp only [encodeMem, hf, if_true, addr20Of, show ∀ f, (flagsOf b0 b1 f).field = f from fun _ => rfl,
          h0, h1, h2, byte1Of_flagsOf]
        simp only [flagsOf, byte0Of_opcodeOf]
        rfl
      · simp at h
    | false =>
      simp only [he, Bool.false_eq_true, if_false, Option.some.injEq, Prod.mk.injEq] at h
      obtain ⟨rfl, rfl⟩ := h
      obtain ⟨h0, h1, h2⟩ := disp12_parts (b1.extractLsb' 0 4) b2
      have hf : ∀ f, (flagsOf b0 b1 f).e = false := fun _ => he
      have hd : ∀ f, (flagsOf b0 b1 f).field = f := fun _ => rfl
      refine ⟨by simp [MemOp.wellFormed, hf, hd, disp12Of, h2], ?_⟩
      simp only [encodeMem, hf, Bool.false_eq_true, if_false, disp12Of, hd, h0, h1, byte1Of_flagsOf]
      simp only [flagsOf, byte0Of_opcodeOf]
      rfl
  · simp at h

/-- The operation of an instruction and its fields give it back. -/
theorem Instr.eq_op_instr (i : Instr) :
    (∀ m, i.memOp? = some m → i.op.isFormat2 = false ∧ ∀ r1 r2, i.op.instr m r1 r2 = i) ∧
    (i.memOp? = none → i.op.isFormat2 = true ∧ ∀ m, i.op.instr m i.regPair.1 i.regPair.2 = i) := by
  cases i <;> simp [Instr.memOp?, Instr.op, Op.isFormat2, Op.instr, Instr.regPair]

/-- What the operation and the fields of a built instruction are. -/
theorem Op.instr_parts (o : Op) (m : MemOp) (r1 r2 : RegNo) :
    (o.instr m r1 r2).op = o ∧ (o.instr m r1 r2).memOp? = (if o.isFormat2 then none else some m) := by
  cases o <;> simp [Op.instr, Instr.op, Instr.memOp?, Op.isFormat2]

/-- The length of a built instruction (R80, R86). -/
theorem Op.instr_len (o : Op) (m : MemOp) (r1 r2 : RegNo) :
    (o.instr m r1 r2).len = if o.isFormat2 then 2 else m.len := by
  cases o <;> rfl

end Sys2Proof
end

