-- ==== Sys2Proof/Laws/Memory.lean ====
section
/-! SUPPORT. Laws of memory: every operation keeps the canonical form and the bound, and a read after a write. -/

namespace Sys2Proof.Machine

theorem Memory.wf_nil : Memory.wf [] := by simp [Memory.wf]

/-- Reset's memory has the canonical form. -/
theorem reset_mem_wf : State.reset.mem.wf := Memory.wf_nil

/-- The canonical form, one entry at a time. -/
theorem Memory.wf_cons (k : Nat) (v : Byte) (m : Memory) :
    Memory.wf ((k, v) :: m) ↔ v ≠ Memory.unlisted ∧ (∀ c ∈ m, k < c.1) ∧ m.wf := by
  simp only [Memory.wf, List.map_cons, List.pairwise_cons, List.mem_cons, forall_eq_or_imp,
    List.mem_map, forall_exists_index, and_imp, forall_apply_eq_imp_iff₂]
  tauto

@[simp] theorem Memory.read_nil (a : Nat) : Memory.read [] a = Memory.unlisted := rfl

theorem Memory.read_cons (k : Nat) (v : Byte) (m : Memory) (a : Nat) :
    Memory.read ((k, v) :: m) a = if a = k then v else m.read a := rfl

/-- An address below every entry is unlisted. -/
theorem Memory.read_below (m : Memory) (a : Nat) (h : ∀ c ∈ m, a < c.1) :
    m.read a = Memory.unlisted := by
  induction m with
  | nil => rfl
  | cons c m ih =>
    obtain ⟨k, v⟩ := c
    have hk : a < k := h (k, v) (by simp)
    rw [Memory.read_cons, if_neg (by omega), ih (fun c hc => h c (by simp [hc]))]

theorem Memory.read_entry (a : Nat) (v : Byte) (m : Memory) (b : Nat) (h : ∀ c ∈ m, a < c.1) :
    (Memory.entry a v m).read b = if b = a then v else m.read b := by
  unfold Memory.entry
  split
  · split
    · subst_vars; rw [Memory.read_below m _ h]
    · rfl
  · rfl

theorem Memory.mem_entry {a : Nat} {v : Byte} {m : Memory} {c : Host.Cell}
    (h : c ∈ Memory.entry a v m) : c = (a, v) ∨ c ∈ m := by
  unfold Memory.entry at h
  split at h <;> simp_all

theorem Memory.wf_entry (a : Nat) (v : Byte) (m : Memory) (hm : m.wf) (h : ∀ c ∈ m, a < c.1) :
    (Memory.entry a v m).wf := by
  unfold Memory.entry
  split
  · exact hm
  · exact (Memory.wf_cons a v m).2 ⟨‹_›, h, hm⟩

/-- A written memory lists the address written and what it listed before. -/
theorem Memory.mem_write {m : Memory} {a : Nat} {v : Byte} {c : Host.Cell}
    (h : c ∈ m.write a v) : c = (a, v) ∨ c ∈ m := by
  induction m with
  | nil => simpa using Memory.mem_entry h
  | cons d m ih =>
    obtain ⟨k, w⟩ := d
    simp only [Memory.write] at h
    split at h
    · exact Memory.mem_entry h
    · split at h
      · rcases Memory.mem_entry h with h | h <;> simp [h]
      · rcases List.mem_cons.1 h with h | h
        · simp [h]
        · rcases ih h with h | h <;> simp [h]

/-- A write keeps the canonical form. -/
theorem Memory.wf_write (m : Memory) (a : Nat) (v : Byte) (hm : m.wf) : (m.write a v).wf := by
  induction m with
  | nil => exact Memory.wf_entry a v [] Memory.wf_nil (by simp)
  | cons d m ih =>
    obtain ⟨k, w⟩ := d
    obtain ⟨hw, hk, hm'⟩ := (Memory.wf_cons k w m).1 hm
    simp only [Memory.write]
    split
    · refine Memory.wf_entry a v _ hm ?_
      intro c hc
      rcases List.mem_cons.1 hc with rfl | hc
      · assumption
      · have := hk c hc; omega
    · split
      · subst_vars; exact Memory.wf_entry k v m hm' hk
      · refine (Memory.wf_cons k w _).2 ⟨hw, ?_, ih hm'⟩
        intro c hc
        rcases Memory.mem_write hc with rfl | hc
        · show k < a; omega
        · exact hk c hc

/-- A read after a write: the byte written, or the old byte. -/
theorem Memory.read_write (m : Memory) (a b : Nat) (v : Byte) (hm : m.wf) :
    (m.write a v).read b = if b = a then v else m.read b := by
  induction m with
  | nil => exact Memory.read_entry a v [] b (by simp)
  | cons d m ih =>
    obtain ⟨k, w⟩ := d
    obtain ⟨_, hk, hm'⟩ := (Memory.wf_cons k w m).1 hm
    simp only [Memory.write]
    split
    · refine Memory.read_entry a v _ b ?_
      intro c hc
      rcases List.mem_cons.1 hc with rfl | hc
      · assumption
      · have := hk c hc; omega
    · split
      · subst_vars
        rw [Memory.read_entry k v m b hk, Memory.read_cons]
        split <;> simp_all
      · rw [Memory.read_cons, Memory.read_cons, ih hm']
        split <;> split <;> first | rfl | omega

/-- Writing bytes keeps the canonical form. -/
theorem Memory.wf_writeList (m : Memory) (a : Nat) (vs : List Byte) (hm : m.wf) :
    (m.writeList a vs).wf := by
  induction vs generalizing m a with
  | nil => exact hm
  | cons v vs ih => exact ih _ _ (Memory.wf_write m a v hm)

/-- Writing bytes leaves every byte outside their range alone. -/
theorem Memory.read_writeList_outside (m : Memory) (a b : Nat) (vs : List Byte) (hm : m.wf)
    (h : b < a ∨ a + vs.length ≤ b) : (m.writeList a vs).read b = m.read b := by
  induction vs generalizing m a with
  | nil => rfl
  | cons v vs ih =>
    simp only [List.length_cons] at h
    rw [Memory.writeList, ih _ _ (Memory.wf_write m a v hm) (by omega), Memory.read_write m a b v hm,
      if_neg (by omega)]

/-- Each byte written stands at its address. -/
theorem Memory.read_writeList (m : Memory) (a : Nat) (vs : List Byte) (hm : m.wf) (j : Nat)
    (h : j < vs.length) : (m.writeList a vs).read (a + j) = vs[j] := by
  induction vs generalizing m a j with
  | nil => simp at h
  | cons v vs ih =>
    have hw := Memory.wf_write m a v hm
    cases j with
    | zero =>
      rw [Memory.writeList, Memory.read_writeList_outside _ _ _ _ hw (by omega),
        Memory.read_write m a _ v hm]
      simp
    | succ j =>
      have := ih (m.write a v) (a + 1) hw j (by simpa using h)
      rw [Memory.writeList, show a + (j + 1) = a + 1 + j by omega, this]
      simp

/-- Written bytes that exist leave memory within its bound. -/
theorem Memory.bound_writeList (m : Memory) (a size : Nat) (vs : List Byte)
    (hm : ∀ c ∈ m, c.1 < size) (h : a + vs.length ≤ size) : ∀ c ∈ m.writeList a vs, c.1 < size := by
  induction vs generalizing m a with
  | nil => exact hm
  | cons v vs ih =>
    simp only [List.length_cons] at h
    refine ih (m.write a v) (a + 1) ?_ (by omega)
    intro c hc
    rcases Memory.mem_write hc with rfl | hc
    · show a < size; omega
    · exact hm c hc

@[simp] theorem wordBytes_length (v : Word) : (wordBytes v).length = 3 := rfl

theorem Memory.wf_writeWord (m : Memory) (a : Nat) (v : Word) (hm : m.wf) : (m.writeWord a v).wf :=
  Memory.wf_writeList m a _ hm

/-- The three bytes of a stored word, most significant first (spec/20_memory.md R55). -/
theorem Memory.read_writeWord (m : Memory) (a : Nat) (v : Word) (hm : m.wf) :
    (m.writeWord a v).read a = v.extractLsb' 16 8 ∧
    (m.writeWord a v).read (a + 1) = v.extractLsb' 8 8 ∧
    (m.writeWord a v).read (a + 2) = v.extractLsb' 0 8 :=
  ⟨Memory.read_writeList m a (wordBytes v) hm 0 (by simp),
    Memory.read_writeList m a (wordBytes v) hm 1 (by simp),
    Memory.read_writeList m a (wordBytes v) hm 2 (by simp)⟩

/-- A word is its three bytes. -/
theorem word_of_bytes (v : Word) :
    (v.extractLsb' 16 8 ++ v.extractLsb' 8 8 ++ v.extractLsb' 0 8 : Word) = v := by
  ext i hi
  simp only [BitVec.getElem_append, BitVec.getElem_extractLsb']
  split
  · simp [BitVec.getLsbD_eq_getElem, hi]
  · split <;> (rw [BitVec.getLsbD_eq_getElem (by omega)]; congr 1; omega)

/-- A stored word reads back (R54). -/
theorem Memory.readWord_writeWord (m : Memory) (a : Nat) (v : Word) (hm : m.wf) :
    (m.writeWord a v).readWord a = v := by
  obtain ⟨h0, h1, h2⟩ := Memory.read_writeWord m a v hm
  unfold Memory.readWord
  rw [h0, h1, h2, word_of_bytes]

/-- The forgiving write keeps the canonical form (R56). -/
theorem wf_writeBytes (size : Nat) (m : Memory) (a : Nat) (bs : List Byte) (hm : m.wf) :
    (writeBytes size m a bs).wf := by
  unfold writeBytes
  split
  · exact Memory.wf_writeList m a bs hm
  · exact hm

@[simp] theorem Memory.readList_length (m : Memory) (a n : Nat) : (m.readList a n).length = n := by
  induction n generalizing a with
  | zero => rfl
  | succ n ih => simp [Memory.readList, ih]

end Sys2Proof.Machine
end

