-- ==== Sys2Proof/Laws/State.lean ====
section
/-! SUPPORT. The small lemmas of the state: each field after each update, true by unfolding the update once. -/

namespace Sys2Proof.Machine

@[simp] theorem State.setPc_f (s : State) (v : Word) : (s.setPc v).f = s.f := rfl
@[simp] theorem State.setPc_mem (s : State) (v : Word) : (s.setPc v).mem = s.mem := rfl
@[simp] theorem State.setPc_prog (s : State) (v : Word) : (s.setPc v).prog = s.prog := rfl
@[simp] theorem State.setPc_ready (s : State) (v : Word) : (s.setPc v).ready = s.ready := rfl
@[simp] theorem State.setPc_retFlag (s : State) (v : Word) : (s.setPc v).retFlag = s.retFlag := rfl
@[simp] theorem State.setPc_steps (s : State) (v : Word) : (s.setPc v).steps = s.steps := rfl
@[simp] theorem State.setPc_log (s : State) (v : Word) : (s.setPc v).log = s.log := rfl
@[simp] theorem State.setPc_dev (s : State) (v : Word) : (s.setPc v).dev = s.dev := rfl
@[simp] theorem State.setPc_params (s : State) (v : Word) : (s.setPc v).params = s.params := rfl
@[simp] theorem State.setMem_regs (s : State) (v : Memory) : (s.setMem v).regs = s.regs := rfl
@[simp] theorem State.setMem_f (s : State) (v : Memory) : (s.setMem v).f = s.f := rfl
@[simp] theorem State.setMem_prog (s : State) (v : Memory) : (s.setMem v).prog = s.prog := rfl
@[simp] theorem State.setMem_ready (s : State) (v : Memory) : (s.setMem v).ready = s.ready := rfl
@[simp] theorem State.setMem_retFlag (s : State) (v : Memory) : (s.setMem v).retFlag = s.retFlag := rfl
@[simp] theorem State.setMem_steps (s : State) (v : Memory) : (s.setMem v).steps = s.steps := rfl
@[simp] theorem State.setMem_log (s : State) (v : Memory) : (s.setMem v).log = s.log := rfl
@[simp] theorem State.setMem_dev (s : State) (v : Memory) : (s.setMem v).dev = s.dev := rfl
@[simp] theorem State.setMem_params (s : State) (v : Memory) : (s.setMem v).params = s.params := rfl
@[simp] theorem State.setDev_regs (s : State) (v : Devices) : (s.setDev v).regs = s.regs := rfl
@[simp] theorem State.setDev_f (s : State) (v : Devices) : (s.setDev v).f = s.f := rfl
@[simp] theorem State.setDev_mem (s : State) (v : Devices) : (s.setDev v).mem = s.mem := rfl
@[simp] theorem State.setDev_prog (s : State) (v : Devices) : (s.setDev v).prog = s.prog := rfl
@[simp] theorem State.setDev_ready (s : State) (v : Devices) : (s.setDev v).ready = s.ready := rfl
@[simp] theorem State.setDev_retFlag (s : State) (v : Devices) : (s.setDev v).retFlag = s.retFlag := rfl
@[simp] theorem State.setDev_steps (s : State) (v : Devices) : (s.setDev v).steps = s.steps := rfl
@[simp] theorem State.setDev_log (s : State) (v : Devices) : (s.setDev v).log = s.log := rfl
@[simp] theorem State.setDev_params (s : State) (v : Devices) : (s.setDev v).params = s.params := rfl
@[simp] theorem State.writeReg_f (s : State) (k : RegNo) (v : Word) : (s.writeReg k v).f = s.f := rfl
@[simp] theorem State.writeReg_mem (s : State) (k : RegNo) (v : Word) : (s.writeReg k v).mem = s.mem := rfl
@[simp] theorem State.writeReg_prog (s : State) (k : RegNo) (v : Word) : (s.writeReg k v).prog = s.prog := rfl
@[simp] theorem State.writeReg_ready (s : State) (k : RegNo) (v : Word) : (s.writeReg k v).ready = s.ready := rfl
@[simp] theorem State.writeReg_retFlag (s : State) (k : RegNo) (v : Word) : (s.writeReg k v).retFlag = s.retFlag := rfl
@[simp] theorem State.writeReg_steps (s : State) (k : RegNo) (v : Word) : (s.writeReg k v).steps = s.steps := rfl
@[simp] theorem State.writeReg_log (s : State) (k : RegNo) (v : Word) : (s.writeReg k v).log = s.log := rfl
@[simp] theorem State.writeReg_dev (s : State) (k : RegNo) (v : Word) : (s.writeReg k v).dev = s.dev := rfl
@[simp] theorem State.writeReg_params (s : State) (k : RegNo) (v : Word) : (s.writeReg k v).params = s.params := rfl
@[simp] theorem State.setSw_f (s : State) (v : Word) : (s.setSw v).f = s.f := rfl
@[simp] theorem State.setSw_mem (s : State) (v : Word) : (s.setSw v).mem = s.mem := rfl
@[simp] theorem State.setSw_prog (s : State) (v : Word) : (s.setSw v).prog = s.prog := rfl
@[simp] theorem State.setSw_ready (s : State) (v : Word) : (s.setSw v).ready = s.ready := rfl
@[simp] theorem State.setSw_retFlag (s : State) (v : Word) : (s.setSw v).retFlag = s.retFlag := rfl
@[simp] theorem State.setSw_steps (s : State) (v : Word) : (s.setSw v).steps = s.steps := rfl
@[simp] theorem State.setSw_log (s : State) (v : Word) : (s.setSw v).log = s.log := rfl
@[simp] theorem State.setSw_dev (s : State) (v : Word) : (s.setSw v).dev = s.dev := rfl
@[simp] theorem State.setSw_params (s : State) (v : Word) : (s.setSw v).params = s.params := rfl
@[simp] theorem State.setPc_regs (s : State) (v : Word) : (s.setPc v).regs = { s.regs with pc := v } := rfl
@[simp] theorem State.setMem_mem (s : State) (v : Memory) : (s.setMem v).mem = v := rfl
@[simp] theorem State.setDev_dev (s : State) (v : Devices) : (s.setDev v).dev = v := rfl
@[simp] theorem State.writeReg_regs (s : State) (k : RegNo) (v : Word) :
    (s.writeReg k v).regs = s.regs.write s.params.reg67 k v := rfl
@[simp] theorem State.setSw_regs (s : State) (v : Word) : (s.setSw v).regs = { s.regs with sw := v } := rfl

@[simp] theorem State.halt_regs (s : State) (e : LogEntry) : (s.halt e).regs = s.regs := rfl
@[simp] theorem State.halt_f (s : State) (e : LogEntry) : (s.halt e).f = s.f := rfl
@[simp] theorem State.halt_mem (s : State) (e : LogEntry) : (s.halt e).mem = s.mem := rfl
@[simp] theorem State.halt_prog (s : State) (e : LogEntry) : (s.halt e).prog = s.prog := rfl
@[simp] theorem State.halt_ready (s : State) (e : LogEntry) : (s.halt e).ready = false := rfl
@[simp] theorem State.halt_retFlag (s : State) (e : LogEntry) : (s.halt e).retFlag = s.retFlag := rfl
@[simp] theorem State.halt_steps (s : State) (e : LogEntry) : (s.halt e).steps = s.steps := rfl
@[simp] theorem State.halt_log (s : State) (e : LogEntry) : (s.halt e).log = s.log ++ [e] := rfl
@[simp] theorem State.halt_dev (s : State) (e : LogEntry) : (s.halt e).dev = s.dev := rfl
@[simp] theorem State.halt_params (s : State) (e : LogEntry) : (s.halt e).params = s.params := rfl

@[simp] theorem State.commit_regs (s : State) (a : Word) (i : Instr) (ea : Option Word) :
    (s.commit a i ea).regs = s.regs := rfl
@[simp] theorem State.commit_f (s : State) (a : Word) (i : Instr) (ea : Option Word) :
    (s.commit a i ea).f = s.f := rfl
@[simp] theorem State.commit_mem (s : State) (a : Word) (i : Instr) (ea : Option Word) :
    (s.commit a i ea).mem = s.mem := rfl
@[simp] theorem State.commit_prog (s : State) (a : Word) (i : Instr) (ea : Option Word) :
    (s.commit a i ea).prog = s.prog := rfl
@[simp] theorem State.commit_ready (s : State) (a : Word) (i : Instr) (ea : Option Word) :
    (s.commit a i ea).ready = s.ready := rfl
@[simp] theorem State.commit_retFlag (s : State) (a : Word) (i : Instr) (ea : Option Word) :
    (s.commit a i ea).retFlag = decide (i.op = .rsub) := rfl
@[simp] theorem State.commit_steps (s : State) (a : Word) (i : Instr) (ea : Option Word) :
    (s.commit a i ea).steps = s.steps := rfl
@[simp] theorem State.commit_log (s : State) (a : Word) (i : Instr) (ea : Option Word) :
    (s.commit a i ea).log = s.log ++ [.executed a i ea] := rfl
@[simp] theorem State.commit_dev (s : State) (a : Word) (i : Instr) (ea : Option Word) :
    (s.commit a i ea).dev = s.dev := rfl
@[simp] theorem State.commit_params (s : State) (a : Word) (i : Instr) (ea : Option Word) :
    (s.commit a i ea).params = s.params := rfl

@[simp] theorem State.countStep_regs (s : State) : s.countStep.regs = s.regs := rfl
@[simp] theorem State.countStep_f (s : State) : s.countStep.f = s.f := rfl
@[simp] theorem State.countStep_mem (s : State) : s.countStep.mem = s.mem := rfl
@[simp] theorem State.countStep_prog (s : State) : s.countStep.prog = s.prog := rfl
@[simp] theorem State.countStep_ready (s : State) : s.countStep.ready = s.ready := rfl
@[simp] theorem State.countStep_retFlag (s : State) : s.countStep.retFlag = s.retFlag := rfl
@[simp] theorem State.countStep_steps (s : State) : s.countStep.steps = s.steps + 1 := rfl
@[simp] theorem State.countStep_log (s : State) : s.countStep.log = s.log := rfl
@[simp] theorem State.countStep_dev (s : State) : s.countStep.dev = s.dev := rfl
@[simp] theorem State.countStep_params (s : State) : s.countStep.params = s.params := rfl

/-! The named registers, read and written through their numbers (spec/10_state.md R21). -/

@[simp] theorem Regs.read_A (p : Reg67Policy) (r : Regs) : r.read p RegNo.A = r.a := rfl
@[simp] theorem Regs.write_A (p : Reg67Policy) (r : Regs) (v : Word) :
    r.write p RegNo.A v = { r with a := v } := rfl
@[simp] theorem State.readReg_A (s : State) : s.readReg RegNo.A = s.regs.a := rfl
@[simp] theorem Regs.read_X (p : Reg67Policy) (r : Regs) : r.read p RegNo.X = r.x := rfl
@[simp] theorem Regs.write_X (p : Reg67Policy) (r : Regs) (v : Word) :
    r.write p RegNo.X v = { r with x := v } := rfl
@[simp] theorem State.readReg_X (s : State) : s.readReg RegNo.X = s.regs.x := rfl
@[simp] theorem Regs.read_L (p : Reg67Policy) (r : Regs) : r.read p RegNo.L = r.l := rfl
@[simp] theorem Regs.write_L (p : Reg67Policy) (r : Regs) (v : Word) :
    r.write p RegNo.L v = { r with l := v } := rfl
@[simp] theorem State.readReg_L (s : State) : s.readReg RegNo.L = s.regs.l := rfl
@[simp] theorem Regs.read_B (p : Reg67Policy) (r : Regs) : r.read p RegNo.B = r.b := rfl
@[simp] theorem Regs.write_B (p : Reg67Policy) (r : Regs) (v : Word) :
    r.write p RegNo.B v = { r with b := v } := rfl
@[simp] theorem State.readReg_B (s : State) : s.readReg RegNo.B = s.regs.b := rfl
@[simp] theorem Regs.read_S (p : Reg67Policy) (r : Regs) : r.read p RegNo.S = r.s := rfl
@[simp] theorem Regs.write_S (p : Reg67Policy) (r : Regs) (v : Word) :
    r.write p RegNo.S v = { r with s := v } := rfl
@[simp] theorem State.readReg_S (s : State) : s.readReg RegNo.S = s.regs.s := rfl
@[simp] theorem Regs.read_T (p : Reg67Policy) (r : Regs) : r.read p RegNo.T = r.t := rfl
@[simp] theorem Regs.write_T (p : Reg67Policy) (r : Regs) (v : Word) :
    r.write p RegNo.T v = { r with t := v } := rfl
@[simp] theorem State.readReg_T (s : State) : s.readReg RegNo.T = s.regs.t := rfl
@[simp] theorem Regs.read_PC (p : Reg67Policy) (r : Regs) : r.read p RegNo.PC = r.pc := rfl
@[simp] theorem Regs.write_PC (p : Reg67Policy) (r : Regs) (v : Word) :
    r.write p RegNo.PC v = { r with pc := v } := rfl
@[simp] theorem State.readReg_PC (s : State) : s.readReg RegNo.PC = s.regs.pc := rfl
@[simp] theorem Regs.read_SW (p : Reg67Policy) (r : Regs) : r.read p RegNo.SW = r.sw := rfl
@[simp] theorem Regs.write_SW (p : Reg67Policy) (r : Regs) (v : Word) :
    r.write p RegNo.SW v = { r with sw := v } := rfl
@[simp] theorem State.readReg_SW (s : State) : s.readReg RegNo.SW = s.regs.sw := rfl

/-- The next PC as a 24-bit sum (R27). -/
theorem State.pcAfter_eq (s : State) (n : Nat) : s.pcAfter n = s.regs.pc + BitVec.ofNat 24 n := by
  unfold State.pcAfter trunc24
  apply BitVec.eq_of_toNat_eq
  simp only [BitVec.toNat_ofInt, BitVec.toNat_add, BitVec.toNat_ofNat]
  omega

end Sys2Proof.Machine
end

