-- ==== Sys2Proof/Laws/Operands.lean ====
section
/-! SUPPORT. What the resolver and the operand helpers can answer, said once (spec/40_addressing.md R112, R126 to
R129). -/

namespace Sys2Proof.Machine

@[simp] theorem trunc24_sint24 (v : Word) : trunc24 (sint24 v) = v := BitVec.ofInt_toInt

@[simp] theorem trunc24_readSigned3 (m : Memory) (a : Nat) :
    trunc24 (m.readSigned3 a) = m.readWord a := BitVec.ofInt_toInt

/-- Everything the resolver can answer. -/
theorem resolve_cases (m : MemOp) (s : State) :
    (m.i = true ∧ m.n = false ∧ resolve m s = .ok (.imm (immediateValue m s))) ∨
    (m.n = true ∧ m.i = false ∧ s.InBounds (targetAddress m s).toNat 3 ∧
      resolve m s = .ok (.mem (s.mem.readWord (targetAddress m s).toNat))) ∨
    (m.n = true ∧ m.i = false ∧ ¬ s.InBounds (targetAddress m s).toNat 3 ∧
      resolve m s = .error .indirectBounds) ∨
    (m.n = m.i ∧ resolve m s = .ok (.mem (targetAddress m s))) := by
  unfold resolve MemOp.isImmediate MemOp.isIndirect
  cases m.n <;> cases m.i <;> simp
  by_cases h : s.InBounds (targetAddress m s).toNat 3
  · simp [h]
  · simp [h]; omega

/-- Immediate addressing resolves to an immediate operand, under either policy. -/
theorem resolve_immediate (m : MemOp) (s : State) (hn : m.n = false) (hi : m.i = true) :
    resolve m s = .ok (.imm (immediateValue m s)) := by
  simp [resolve, MemOp.isImmediate, hn, hi]

/-- A bad pointer is the resolver's only error (R110). -/
theorem resolve_badPointer (m : MemOp) (s : State) (hn : m.n = true) (hi : m.i = false)
    (hb : ¬ s.InBounds (targetAddress m s).toNat 3) : resolve m s = .error .indirectBounds := by
  simp only [resolve, MemOp.isImmediate, MemOp.isIndirect, hn, hi]
  simp [hb]

theorem resolve_error {m : MemOp} {s : State} {k : ErrorKind} (h : resolve m s = .error k) :
    k = .indirectBounds := by
  rcases resolve_cases m s with ⟨_, _, e⟩ | ⟨_, _, _, e⟩ | ⟨_, _, _, e⟩ | ⟨_, e⟩ <;> simp_all

/-- A readable word operand is what the source word reads. -/
theorem sourceWord_of_operand {m : MemOp} {s : State} {v : Word} (h : WordOperand m s v) :
    sourceWord m s = .ok v := by
  rcases h with h | ⟨ea, h, hb, rfl⟩ <;>
    simp_all [sourceWord, operand3, bind, Except.bind]

/-- What a source word that reads is. -/
theorem operand_of_sourceWord {m : MemOp} {s : State} {v : Word} (h : sourceWord m s = .ok v) :
    WordOperand m s v := by
  unfold sourceWord at h
  cases hr : resolve m s with
  | error k => simp [hr, bind, Except.bind] at h
  | ok d =>
    cases d with
    | imm w => simp_all [operand3, bind, Except.bind, WordOperand]
    | mem ea =>
      by_cases hb : s.InBounds ea.toNat 3 <;>
        simp_all [operand3, bind, Except.bind, WordOperand]

/-- A readable byte operand is what the source byte reads. -/
theorem sourceByte_of_operand {m : MemOp} {s : State} {c : Byte} (h : ByteOperand m s c) :
    sourceByte m s = .ok c := by
  rcases h with ⟨v, h, rfl⟩ | ⟨ea, h, hb, rfl⟩ <;>
    simp_all [sourceByte, operand1, bind, Except.bind]

/-- Why a source word is not read (R301). -/
theorem sourceWord_error {m : MemOp} {s : State} {k : ErrorKind} (h : sourceWord m s = .error k) :
    k = .indirectBounds ∨ k = .memBounds := by
  unfold sourceWord at h
  cases hr : resolve m s with
  | error k' =>
    have := resolve_error hr
    simp_all [bind, Except.bind]
  | ok d =>
    cases d with
    | imm w => simp [hr, bind, Except.bind, operand3] at h
    | mem ea =>
      by_cases hb : s.InBounds ea.toNat 3 <;> simp_all [bind, Except.bind, operand3]

/-- Why a source byte is not read (R301). -/
theorem sourceByte_error {m : MemOp} {s : State} {k : ErrorKind} (h : sourceByte m s = .error k) :
    k = .indirectBounds ∨ k = .memBounds := by
  unfold sourceByte at h
  cases hr : resolve m s with
  | error k' =>
    have := resolve_error hr
    simp_all [bind, Except.bind]
  | ok d =>
    cases d with
    | imm w => simp [hr, bind, Except.bind, operand1] at h
    | mem ea =>
      by_cases hb : s.InBounds ea.toNat 1 <;> simp_all [bind, Except.bind, operand1]

/-- Where a store goes: an effective address whose bytes exist (R128). -/
theorem storeAddress_ok {m : MemOp} {n : Nat} {s : State} {a : Nat} (h : storeAddress m n s = .ok a) :
    ∃ ea, resolve m s = .ok (.mem ea) ∧ a = ea.toNat ∧ a + n ≤ s.params.memSize := by
  unfold storeAddress at h
  cases hr : resolve m s with
  | error k' => simp [hr, bind, Except.bind] at h
  | ok d =>
    cases d with
    | imm w => simp [hr, bind, Except.bind, storeTarget] at h
    | mem ea =>
      by_cases hb : s.InBounds ea.toNat n <;>
        simp_all [bind, Except.bind, storeTarget]

/-- An effective address whose bytes exist is where the store goes (R128). -/
theorem storeAddress_of_resolve {m : MemOp} {n : Nat} {s : State} {ea : Word}
    (h : resolve m s = .ok (.mem ea)) (hb : s.InBounds ea.toNat n) :
    storeAddress m n s = .ok ea.toNat := by
  simp only [storeAddress, h, bind, Except.bind, storeTarget, if_pos hb]

/-- Why there is no store address (R301). -/
theorem storeAddress_error {m : MemOp} {n : Nat} {s : State} {k : ErrorKind}
    (h : storeAddress m n s = .error k) :
    k = .indirectBounds ∨ k = .immediateNotAllowed ∨ k = .memBounds := by
  unfold storeAddress at h
  cases hr : resolve m s with
  | error k' =>
    have := resolve_error hr
    simp_all [bind, Except.bind]
  | ok d =>
    cases d with
    | imm w => simp_all [bind, Except.bind, storeTarget]
    | mem ea =>
      by_cases hb : s.InBounds ea.toNat n <;> simp_all [bind, Except.bind, storeTarget]

/-- A jump's target is the effective address (R129). -/
theorem jumpAddress_ok {m : MemOp} {s : State} {t : Word} (h : jumpAddress m s = .ok t) :
    resolve m s = .ok (.mem t) := by
  unfold jumpAddress at h
  cases hr : resolve m s with
  | error k' => simp [hr, bind, Except.bind] at h
  | ok d => cases d <;> simp_all [bind, Except.bind, jumpTarget]

theorem jumpAddress_of_resolve {m : MemOp} {s : State} {t : Word} (h : resolve m s = .ok (.mem t)) :
    jumpAddress m s = .ok t := by
  simp [jumpAddress, h, bind, Except.bind, jumpTarget]

/-- Why a jump has no target (R301). -/
theorem jumpAddress_error {m : MemOp} {s : State} {k : ErrorKind} (h : jumpAddress m s = .error k) :
    k = .indirectBounds ∨ k = .immediateNotAllowed := by
  unfold jumpAddress at h
  cases hr : resolve m s with
  | error k' =>
    have := resolve_error hr
    simp_all [bind, Except.bind]
  | ok d => cases d <;> simp_all [bind, Except.bind, jumpTarget]

end Sys2Proof.Machine
end

