-- ==== Sys2Proof/Laws/Exec.lean ====
section
/-! SUPPORT. What each shared operation of the meanings can do, said once: from an answer, the operand it read and
the state it gives. -/

namespace Sys2Proof.Machine

@[simp] theorem answer_ok (s : State) : answer (.ok s) = .next s := rfl
@[simp] theorem answer_error (k : ErrorKind) : answer (.error k) = .fault (.errorHalt k) := rfl

/-- A meaning that answers a next state staged that state. -/
theorem answer_next {r : Except ErrorKind State} {t : State} (h : answer r = .next t) : r = .ok t := by
  cases r <;> simp_all

theorem map_ok {α β : Type} {r : Except ErrorKind α} {f : α → β} {y : β} (h : r.map f = .ok y) :
    ∃ x, r = .ok x ∧ y = f x := by
  cases r <;> simp_all [Except.map]

/-- Everything a word load that answers can do. -/
theorem loadWord_ok {k : RegNo} {m : MemOp} {s t : State} (h : loadWord k m s = .ok t) :
    ∃ v, WordOperand m s v ∧ t = (s.writeReg k v).setPc (s.pcAfter m.len) := by
  obtain ⟨v, hv, rfl⟩ := map_ok h
  exact ⟨v, operand_of_sourceWord hv, rfl⟩

/-- A word load of a readable operand. -/
theorem loadWord_of_operand {k : RegNo} {m : MemOp} {s : State} {v : Word} (h : WordOperand m s v) :
    loadWord k m s = .ok ((s.writeReg k v).setPc (s.pcAfter m.len)) := by
  simp [loadWord, sourceWord_of_operand h, Except.map]

/-- Everything a word store that answers can do. -/
theorem storeWord_ok {k : RegNo} {m : MemOp} {s t : State} (h : storeWord k m s = .ok t) :
    ∃ a, storeAddress m 3 s = .ok a ∧
      t = (s.setMem (s.mem.writeWord a (s.readReg k))).setPc (s.pcAfter m.len) :=
  map_ok h

/-- A word store to an effective address whose bytes exist. -/
theorem storeWord_of_resolve {k : RegNo} {m : MemOp} {s : State} {ea : Word}
    (h : resolve m s = .ok (.mem ea)) (hb : s.InBounds ea.toNat 3) :
    storeWord k m s =
      .ok ((s.setMem (s.mem.writeWord ea.toNat (s.readReg k))).setPc (s.pcAfter m.len)) := by
  simp only [storeWord, storeAddress_of_resolve h hb, Except.map]

/-- Everything an accumulator operation that answers can do. -/
theorem accumulate_ok {f : Word → Word → Except ErrorKind Word} {m : MemOp} {s t : State}
    (h : accumulate f m s = .ok t) :
    ∃ v w, WordOperand m s v ∧ f s.regs.a v = .ok w ∧
      t = (s.writeReg RegNo.A w).setPc (s.pcAfter m.len) := by
  unfold accumulate at h
  cases hv : sourceWord m s with
  | error k => simp [hv, bind, Except.bind] at h
  | ok v =>
    cases hw : f s.regs.a v with
    | error k => simp [hv, hw, bind, Except.bind] at h
    | ok w =>
      refine ⟨v, w, operand_of_sourceWord hv, hw, ?_⟩
      simp [hv, hw, bind, Except.bind, pure, Except.pure] at h
      exact h.symm

/-- An accumulator operation on a readable operand. -/
theorem accumulate_of_operand {f : Word → Word → Except ErrorKind Word} {m : MemOp} {s : State}
    {v w : Word} (h : WordOperand m s v) (hw : f s.regs.a v = .ok w) :
    accumulate f m s = .ok ((s.writeReg RegNo.A w).setPc (s.pcAfter m.len)) := by
  simp [accumulate, sourceWord_of_operand h, bind, Except.bind, hw, pure, Except.pure]

/-- Everything a register operation that answers can do. -/
theorem registerOp_ok {f : Word → Word → Except ErrorKind Word} {r1 r2 : RegNo} {s t : State}
    (h : registerOp f r1 r2 s = .ok t) :
    ∃ w, f (s.readReg r2) (s.readReg r1) = .ok w ∧ t = (s.writeReg r2 w).setPc (s.pcAfter 2) := by
  unfold registerOp at h
  cases hw : f (s.readReg r2) (s.readReg r1) with
  | error k => simp [hw, bind, Except.bind] at h
  | ok w =>
    refine ⟨w, rfl, ?_⟩
    simp [hw, bind, Except.bind, pure, Except.pure] at h
    exact h.symm

/-- Everything a conditional jump that answers can do. -/
theorem jumpIf_ok {code : Word} {m : MemOp} {s t : State} (h : jumpIf code m s = .ok t) :
    ∃ a, resolve m s = .ok (.mem a) ∧
      t = s.setPc (if s.regs.sw = code then a else s.pcAfter m.len) := by
  obtain ⟨a, ha, rfl⟩ := map_ok h
  exact ⟨a, jumpAddress_ok ha, rfl⟩

/-- A conditional jump whose target resolves. -/
theorem jumpIf_of_resolve {code : Word} {m : MemOp} {s : State} {a : Word}
    (h : resolve m s = .ok (.mem a)) :
    jumpIf code m s = .ok (s.setPc (if s.regs.sw = code then a else s.pcAfter m.len)) := by
  rw [jumpIf, jumpAddress_of_resolve h]
  rfl

/-- The bits of a word whose low byte was replaced (spec/41_load_store.md R153). -/
theorem withLowByte_getLsbD (a : Word) (c : Byte) (i : Nat) :
    (withLowByte a c).getLsbD i =
      if i < 8 then c.getLsbD i else (a.extractLsb' 8 16).getLsbD (i - 8) := by
  unfold withLowByte
  exact BitVec.getLsbD_append

/-- The replaced byte. -/
@[simp] theorem withLowByte_low (a : Word) (c : Byte) : (withLowByte a c).extractLsb' 0 8 = c := by
  ext i hi
  simp only [BitVec.getElem_extractLsb', withLowByte_getLsbD]
  simp [hi, BitVec.getLsbD_eq_getElem]

/-- The bits that are kept. -/
@[simp] theorem withLowByte_high (a : Word) (c : Byte) :
    (withLowByte a c).extractLsb' 8 16 = a.extractLsb' 8 16 := by
  ext i hi
  simp only [BitVec.getElem_extractLsb', withLowByte_getLsbD]
  rw [if_neg (by omega)]
  simp [hi]

/-- Division answers unless the divisor is zero (spec/42_arithmetic.md R170). -/
theorem divWords_ok (a v : Word) (h : v ≠ 0#24) :
    divWords a v = .ok (trunc24 (Int.tdiv (sint24 a) (sint24 v))) := by
  have : sint24 v ≠ 0 := fun h0 => h (BitVec.eq_of_toInt_eq (by simpa [sint24] using h0))
  simp [divWords, this]

theorem divWords_zero (a : Word) : divWords a 0#24 = .error .divZero := by simp [divWords, sint24]

/-- Addition is addition modulo 2^24 (R170). -/
theorem addWords_eq (a v : Word) : addWords a v = a + v := by
  simp [addWords, trunc24, sint24, BitVec.ofInt_add]

/-- Subtraction is subtraction modulo 2^24 (R170). -/
theorem subWords_eq (a v : Word) : subWords a v = a - v := by
  apply BitVec.eq_of_toInt_eq
  simp [subWords, trunc24, sint24, BitVec.toInt_ofInt, BitVec.toInt_sub]

/-- Multiplication is multiplication modulo 2^24 (R170). -/
theorem mulWords_eq (a v : Word) : mulWords a v = a * v := by
  simp [mulWords, trunc24, sint24, BitVec.ofInt_mul]

/-- The condition code by the signed order on words (spec/43_compare.md R200, R201). -/
theorem cc_eq (a b : Word) :
    cc (sint24 a) (sint24 b) = if a.slt b then 0x000001#24 else if a = b then 0x000000#24 else 0x000002#24 := by
  simp only [cc, sint24, BitVec.slt, decide_eq_true_eq, ccLT, ccEQ, ccGT, BitVec.toInt_inj]

/-- The incremented X as a sum modulo 2^24 (R204). -/
theorem incremented_eq (x : Word) : incremented x = x + 1#24 := by
  apply BitVec.eq_of_toNat_eq
  simp only [incremented, trunc24, BitVec.toNat_ofInt, BitVec.toNat_add, BitVec.toNat_ofNat]
  omega

end Sys2Proof.Machine
end

