-- ==== Sys2Proof/Laws/Controller.lean ====
section
/-! SUPPORT. What an instruction, the fetch and the step can answer, said once (spec/60_exceptions.md R300 to R311,
spec/30_encoding.md R86). -/

namespace Sys2Proof.Machine

/-! ### Instructions -/

/-- The answer of a meaning is a next state or an error halt. -/
theorem answer_cases (r : Except ErrorKind State) :
    (∃ t, answer r = .next t) ∨ ∃ k, answer r = .fault (.errorHalt k) := by
  cases r <;> simp

/-- An instruction answers a next state, an error halt or a normal halt; never a controller's stop, never a
refusal (R300). -/
theorem exec_outcomes (i : Instr) (s : State) :
    (∃ t, exec i s = .next t) ∨ (∃ k, exec i s = .fault (.errorHalt k)) ∨
      exec i s = .fault .normalHalt := by
  have key : ∀ r, exec i s = answer r → (∃ t, exec i s = .next t) ∨
      (∃ k, exec i s = .fault (.errorHalt k)) ∨ exec i s = .fault .normalHalt := by
    intro r h
    rw [h]
    rcases answer_cases r with h | h
    · exact .inl h
    · exact .inr (.inl h)
  cases i with
  | addr r1 r2 | subr r1 r2 | mulr r1 r2 | rmo r1 r2 => exact .inl ⟨_, rfl⟩
  | compr r1 r2 | clear r1 | tixr r1 => exact .inl ⟨_, rfl⟩
  | rsub m =>
    simp only [exec, execRsub]
    cases resolve m s with
    | error k => exact .inr (.inl ⟨k, rfl⟩)
    | ok d => cases s.params.rsub <;> simp
  | _ => exact key _ rfl

/-- What RSUB does when it answers (spec/44_control.md R226). -/
theorem execRsub_next {m : MemOp} {s t : State} (h : execRsub m s = .next t) :
    t = s.setPc s.regs.l := by
  unfold execRsub at h
  split at h
  · simp at h
  · split at h
    · cases h; rfl
    · simp at h

/-- An instruction that answers stores nothing, or stores bytes that exist where `storeRange` says. -/
theorem exec_mem (i : Instr) (s t : State) (h : exec i s = .next t) :
    (storeRange i s = none ∧ t.mem = s.mem) ∨
      ∃ a vs, storeRange i s = some (a, vs.length) ∧ t.mem = s.mem.writeList a vs ∧
        a + vs.length ≤ s.params.memSize := by
  cases i with
  | lda m | ldx m | ldl m | ldb m | lds m | ldt m =>
    obtain ⟨v, -, rfl⟩ := loadWord_ok (answer_next h)
    exact .inl ⟨rfl, rfl⟩
  | sta m | stx m | stl m | stb m | sts m | stt m =>
    obtain ⟨a, ha, rfl⟩ := storeWord_ok (answer_next h)
    obtain ⟨ea, -, -, hb⟩ := storeAddress_ok ha
    exact .inr ⟨a, wordBytes _, by simp [storeRange, ha, Except.toOption], rfl, by simpa using hb⟩
  | stch m =>
    obtain ⟨a, ha, rfl⟩ := map_ok (answer_next h)
    obtain ⟨ea, -, -, hb⟩ := storeAddress_ok ha
    exact .inr ⟨a, [lowByte s.regs.a], by simp [storeRange, ha, Except.toOption], rfl, by simpa using hb⟩
  | ldch m | td m | rd m | wd m | comp m | tix m | j m | jsub m =>
    obtain ⟨v, -, rfl⟩ := map_ok (answer_next h)
    exact .inl ⟨rfl, rfl⟩
  | add m | sub m | mul m | div m =>
    obtain ⟨v, w, -, -, rfl⟩ := accumulate_ok (answer_next h)
    exact .inl ⟨rfl, rfl⟩
  | jeq m | jlt m | jgt m =>
    obtain ⟨v, -, rfl⟩ := jumpIf_ok (answer_next h)
    exact .inl ⟨rfl, rfl⟩
  | rsub m =>
    obtain rfl := execRsub_next h
    exact .inl ⟨rfl, rfl⟩
  | addr r1 r2 | subr r1 r2 | mulr r1 r2 | rmo r1 r2 =>
    cases h
    exact .inl ⟨rfl, rfl⟩
  | divr r1 r2 =>
    obtain ⟨v, -, rfl⟩ := registerOp_ok (answer_next h)
    exact .inl ⟨rfl, rfl⟩
  | compr r1 r2 | clear r1 | tixr r1 =>
    cases h
    exact .inl ⟨rfl, rfl⟩

/-! ### The fetch -/

/-- Everything a fetch that answers can have read: the two bytes of a format-2 word, or the three or four of
any other, by the e flag (R86). -/
theorem fetch_ok {s : State} {bytes : List Byte} (h : fetch s = .ok bytes) :
    ∃ len, s.regs.pc.toNat + len ≤ s.params.memSize ∧ bytes = s.mem.readList s.regs.pc.toNat len ∧
      (((s.params.opcodeMap.opOf (opcodeOf (s.mem.read s.regs.pc.toNat))).map Op.isFormat2 = some true ∧
          len = 2) ∨
        ((s.params.opcodeMap.opOf (opcodeOf (s.mem.read s.regs.pc.toNat))).map Op.isFormat2 ≠ some true ∧
          len = if extendedFlag (s.mem.read (s.regs.pc.toNat + 1)) then 4 else 3)) := by
  unfold fetch at h
  split at h
  · split at h
    · simp at h
    · rename_i len hl
      split at h
      · rename_i hb
        refine ⟨len, hb, by simpa using h.symm, ?_⟩
        unfold lengthAt instrLength at hl
        split at hl
        · rename_i ho
          exact .inl ⟨ho, by simpa using hl.symm⟩
        · rename_i ho
          refine .inr ⟨ho, ?_⟩
          by_cases h1 : s.InBounds (s.regs.pc.toNat + 1) 1
          · rw [if_pos h1] at hl
            simpa using hl.symm
          · rw [if_neg h1] at hl
            simp at hl
      · simp at h
  · simp at h

/-- Fetched bytes are exactly one word: they decode with nothing left over, or their opcode is unknown; they
are never truncated. -/
theorem fetched_decodes {s : State} {bytes : List Byte} (h : fetch s = .ok bytes) :
    (∃ i, decodeWith s.params.opcodeMap bytes = .ok (i, []) ∧ bytes.length = i.len) ∨
    (∃ b0 tail m, bytes = b0 :: tail ∧ s.params.opcodeMap.opOf (opcodeOf b0) = none ∧
      decodeWith s.params.opcodeMap bytes = .error (.unknownOpcode (opcodeOf b0) m) ∧
      bytes.length = m.len) := by
  obtain ⟨len, -, rfl, hl⟩ := fetch_ok h
  have mem : len = (if extendedFlag (s.mem.read (s.regs.pc.toNat + 1)) then 4 else 3) →
      ∃ tail m, s.mem.readList s.regs.pc.toNat len = s.mem.read s.regs.pc.toNat :: tail ∧
        decodeMemOp (s.mem.read s.regs.pc.toNat) tail = some (m, []) ∧ len = m.len := by
    intro hlen
    cases he : extendedFlag (s.mem.read (s.regs.pc.toNat + 1)) with
    | true =>
      simp only [he, if_true] at hlen
      subst hlen
      exact ⟨_, flagsOf (s.mem.read s.regs.pc.toNat) (s.mem.read (s.regs.pc.toNat + 1)) (addr20Of _ _ _), rfl,
        by simp only [Memory.readList, decodeMemOp, he, if_true]; rfl, by simp [flagsOf, MemOp.len, he]⟩
    | false =>
      simp only [he, Bool.false_eq_true, if_false] at hlen
      subst hlen
      exact ⟨_, flagsOf (s.mem.read s.regs.pc.toNat) (s.mem.read (s.regs.pc.toNat + 1)) (disp12Of _ _), rfl,
        by simp only [Memory.readList, decodeMemOp, he, Bool.false_eq_true, if_false]; rfl,
        by simp [flagsOf, MemOp.len, he]⟩
  cases ho : s.params.opcodeMap.opOf (opcodeOf (s.mem.read s.regs.pc.toNat)) with
  | none =>
    right
    have hlen := (hl.resolve_left (by simp [ho])).2
    obtain ⟨tail, m, ht, hm, hlm⟩ := mem hlen
    refine ⟨_, tail, m, ht, ho, ?_, by simp [hlm]⟩
    rw [ht]
    simp [decodeWith, ho, hm]
  | some o =>
    left
    cases h2 : o.isFormat2 with
    | true =>
      have hlen : len = 2 := by
        rcases hl with ⟨-, hl⟩ | ⟨hl, -⟩
        · exact hl
        · simp [ho, h2] at hl
      subst hlen
      refine ⟨o.instr MemOp.unused (reg1Of (s.mem.read (s.regs.pc.toNat + 1)))
        (reg2Of (s.mem.read (s.regs.pc.toNat + 1))), by simp [Memory.readList, decodeWith, ho, h2], ?_⟩
      rw [Op.instr_len, h2]
      simp
    | false =>
      have hlen := (hl.resolve_left (by simp [ho, h2])).2
      obtain ⟨tail, m, ht, hm, hlm⟩ := mem hlen
      refine ⟨o.instr m 0#4 0#4, ?_, ?_⟩
      · rw [ht]
        simp [decodeWith, ho, hm, h2]
      · rw [Memory.readList_length, Op.instr_len, h2, hlm]
        simp

/-! ### The step -/

/-- What makes the step stop, and with which outcome and log entry. -/
inductive StopCause (s : State) : StopOutcome → LogEntry → Prop where
  | range : s.ready = true → ¬ s.inProgramRange s.regs.pc →
      StopCause s (boundsOutcome s) (.boundsHalt (boundsOutcome s) s.regs.pc)
  | fetch (k : ErrorKind) : s.runnable → fetch s = .error k →
      StopCause s (.errorHalt k) (.engineHalt (.errorHalt k) ⟨s.regs.pc, [], none⟩)
  | pointer (bytes : List Byte) (op : OpCode) (m : MemOp) : s.runnable → fetch s = .ok bytes →
      decodeWith s.params.opcodeMap bytes = .error (.unknownOpcode op m) → resolve m s = .error .indirectBounds →
      StopCause s (.errorHalt .indirectBounds)
        (.engineHalt (.errorHalt .indirectBounds) ⟨s.regs.pc, bytes, none⟩)
  | unknown (bytes : List Byte) (op : OpCode) (m : MemOp) (d : Addressing) : s.runnable →
      fetch s = .ok bytes → decodeWith s.params.opcodeMap bytes = .error (.unknownOpcode op m) →
      resolve m s = .ok d →
      StopCause s (.errorHalt .unknownOpcode)
        (.engineHalt (.errorHalt .unknownOpcode) ⟨s.regs.pc, bytes, d.ea⟩)
  | error (bytes : List Byte) (i : Instr) (k : ErrorKind) : s.runnable → fetch s = .ok bytes →
      decodeWith s.params.opcodeMap bytes = .ok (i, []) → exec i s = .fault (.errorHalt k) →
      StopCause s (.errorHalt k) (.engineHalt (.errorHalt k) ⟨s.regs.pc, bytes, reportedEa i s⟩)
  | normal (bytes : List Byte) (i : Instr) : s.runnable → fetch s = .ok bytes →
      decodeWith s.params.opcodeMap bytes = .ok (i, []) → exec i s = .fault .normalHalt →
      StopCause s .normalHalt (.engineHalt .normalHalt ⟨s.regs.pc, bytes, reportedEa i s⟩)

/-- EVERYTHING A STEP CAN DO: nothing, when the controller is not ready; run one instruction and commit it; or
halt, with a cause (R300, R310, R311). -/
theorem step_cases (s : State) :
    (s.ready = false ∧ step s = .fault (.stopped .notReady s)) ∨
    (∃ bytes i u, s.runnable ∧ fetch s = .ok bytes ∧
      decodeWith s.params.opcodeMap bytes = .ok (i, []) ∧ exec i s = .next u ∧
      step s = .next (u.commit s.regs.pc i (reportedEa i s))) ∨
    (∃ o e, StopCause s o e ∧ step s = .fault (.stopped o (s.halt e))) := by
  unfold step controllerStep
  cases hr : s.ready with
  | false => exact .inl ⟨rfl, by simp⟩
  | true =>
    right
    simp only [if_true]
    by_cases hp : s.inProgramRange s.regs.pc
    · rw [if_pos hp]
      have hrun : s.runnable := ⟨hr, hp⟩
      unfold engineStep
      cases hf : fetch s with
      | error k => exact .inr ⟨_, _, .fetch k hrun hf, rfl⟩
      | ok bytes =>
        simp only [runFetched]
        rcases fetched_decodes hf with ⟨i, hd, -⟩ | ⟨b0, tail, m, -, -, hd, -⟩
        · simp only [hd]
          rcases exec_outcomes i s with ⟨t, ht⟩ | ⟨k, hk⟩ | hn
          · exact .inl ⟨bytes, i, t, hrun, rfl, hd, ht, by simp [ht, settle]⟩
          · exact .inr ⟨_, _, .error bytes i k hrun hf hd hk, by simp [hk, settle, engineStop]⟩
          · exact .inr ⟨_, _, .normal bytes i hrun hf hd hn, by simp [hn, settle, engineStop]⟩
        · simp only [hd, unknownWord]
          cases hres : resolve m s with
          | error k =>
            obtain rfl := resolve_error hres
            exact .inr ⟨_, _, .pointer bytes _ m hrun hf hd hres, rfl⟩
          | ok d => exact .inr ⟨_, _, .unknown bytes _ m d hrun hf hd hres, rfl⟩
    · rw [if_neg hp]
      exact .inr ⟨_, _, .range hr hp, rfl⟩

/-- A step that answers a next state ran one instruction. -/
theorem step_next {s t : State} (h : step s = .next t) :
    ∃ bytes i u, s.runnable ∧ fetch s = .ok bytes ∧
      decodeWith s.params.opcodeMap bytes = .ok (i, []) ∧ exec i s = .next u ∧
      t = u.commit s.regs.pc i (reportedEa i s) := by
  rcases step_cases s with ⟨-, h'⟩ | ⟨bytes, i, u, hr, hf, hd, he, h'⟩ | ⟨o, e, -, h'⟩
  · simp [h'] at h
  · rw [h'] at h
    exact ⟨bytes, i, u, hr, hf, hd, he, by simpa using h.symm⟩
  · simp [h'] at h

/-- A step that stops was not ready, or halted with a cause and left everything but `ready` and the log. -/
theorem step_stopped {s t : State} {o : StopOutcome} (h : step s = .fault (.stopped o t)) :
    (s.ready = false ∧ o = .notReady ∧ t = s) ∨ ∃ e, StopCause s o e ∧ t = s.halt e := by
  rcases step_cases s with ⟨hr, h'⟩ | ⟨bytes, i, u, hr, hf, hd, he, h'⟩ | ⟨o', e, hc, h'⟩
  · rw [h'] at h
    cases h
    exact .inl ⟨hr, rfl, rfl⟩
  · simp [h'] at h
  · rw [h'] at h
    cases h
    exact .inr ⟨e, hc, rfl⟩

/-- No halt is reported as CEILING, and a halt needs a ready controller. -/
theorem StopCause.ready {s : State} {o : StopOutcome} {e : LogEntry} (h : StopCause s o e) :
    s.ready = true ∧ o ≠ .ceiling ∧ o ≠ .notReady := by
  cases h with
  | range hr hp =>
    refine ⟨hr, ?_, ?_⟩ <;> (unfold boundsOutcome; split <;> try split) <;> simp
  | fetch k hr hf => exact ⟨hr.1, by simp, by simp⟩
  | pointer bytes op m hr hf hd hres => exact ⟨hr.1, by simp, by simp⟩
  | unknown bytes op m d hr hf hd hres => exact ⟨hr.1, by simp, by simp⟩
  | error bytes i k hr hf hd he => exact ⟨hr.1, by simp, by simp⟩
  | normal bytes i hr hf hd he => exact ⟨hr.1, by simp, by simp⟩

end Sys2Proof.Machine
end

