-- ==== Sys2Proof/Laws/Loader.lean ====
section
/-! SUPPORT. What the loader's operations keep, said once: a memory that is canonical and within its bound stays so
(spec/50_loader.md R271, R276). -/

namespace Sys2Proof.Machine

/-- Memory is canonical and holds only bytes that exist. -/
abbrev Memory.fits (m : Memory) (size : Nat) : Prop := m.wf ∧ m.within size

/-- Bytes that all exist, written, keep a memory fit. -/
theorem Memory.fits_writeList {m : Memory} {a size : Nat} {vs : List Byte} (hm : m.fits size)
    (h : a + vs.length ≤ size) : (m.writeList a vs).fits size :=
  ⟨Memory.wf_writeList m a vs hm.1, Memory.bound_writeList m a size vs hm.2 h⟩

/-- The forgiving write keeps a memory fit. -/
theorem Memory.fits_writeBytes {m : Memory} {a size : Nat} {vs : List Byte} (hm : m.fits size) :
    (writeBytes size m a vs).fits size := by
  unfold writeBytes
  split
  · exact Memory.fits_writeList hm (by assumption)
  · exact hm

@[simp] theorem Loader.note_mem (l : Loader) (r : LoadReport) : (l.note r).mem = l.mem := rfl
@[simp] theorem Loader.note_mbuf (l : Loader) (r : LoadReport) : (l.note r).mbuf = l.mbuf := rfl
@[simp] theorem Loader.note_csAddr (l : Loader) (r : LoadReport) : (l.note r).csAddr = l.csAddr := rfl
@[simp] theorem Loader.define_mem (l : Loader) (sym : Text) (a : Word) : (l.define sym a).mem = l.mem := rfl
@[simp] theorem Loader.define_mbuf (l : Loader) (sym : Text) (a : Word) : (l.define sym a).mbuf = l.mbuf := rfl
@[simp] theorem Loader.define_csAddr (l : Loader) (sym : Text) (a : Word) :
    (l.define sym a).csAddr = l.csAddr := rfl
@[simp] theorem Loader.define_report (l : Loader) (sym : Text) (a : Word) :
    (l.define sym a).report = l.report := rfl
@[simp] theorem Loader.endSection_mem (l : Loader) : l.endSection.mem = l.mem := rfl
@[simp] theorem Loader.setEntry_mem (l : Loader) (a : Word) : (l.setEntry a).mem = l.mem := by
  unfold Loader.setEntry; split <;> rfl

/-- D records change the symbol table and the report, and nothing else. -/
theorem Loader.onDefine_keeps (n : Nat) (l : Loader) (groups : List DefGroup) :
    l.onDefine n groups =
      { l with estab := (l.onDefine n groups).estab, report := (l.onDefine n groups).report } := by
  induction groups generalizing l with
  | nil => rfl
  | cons g rest ih =>
    cases g with
    | none => exact ih (l.note (.line n .malformed))
    | some g => exact ih (l.define g.1 (l.csAddr + g.2))

/-- The header after a record: the first H record's, and it stays (R264). -/
theorem Loader.onRecord_header (size n : Nat) (l : Loader) (r : Record) :
    (l.onRecord size n r).header = l.header.or r.headerFields := by
  cases r with
  | header name start length => cases h : l.header <;> simp [Loader.onRecord, Loader.onHeader, h, Record.headerFields]
  | define groups =>
    show (l.onDefine n groups).header = _
    rw [Loader.onDefine_keeps]
    simp [Record.headerFields]
  | text start bytes =>
    show (l.onText size n start bytes).header = _
    unfold Loader.onText
    split <;> simp [Loader.note, Record.headerFields]
  | finish field =>
    cases field <;> cases h : l.entrySet <;>
      simp [Loader.onRecord, Loader.onEnd, Loader.setEntry, Loader.endSection, Loader.note, h,
        Record.headerFields]
  | _ => simp [Loader.onRecord, Loader.onModify, Loader.note, Record.headerFields]

/-- One record keeps a memory fit. -/
theorem Loader.onRecord_fits {size n : Nat} {l : Loader} (r : Record) (h : l.mem.fits size) :
    (l.onRecord size n r).mem.fits size := by
  cases r with
  | define groups =>
    show (l.onDefine n groups).mem.fits size
    rw [Loader.onDefine_keeps]
    exact h
  | text start bytes =>
    show (l.onText size n start bytes).mem.fits size
    unfold Loader.onText
    split
    · exact Memory.fits_writeBytes h
    · exact h
  | finish field =>
    cases field <;> simpa [Loader.onRecord, Loader.onEnd] using h
  | _ => exact h

/-- The scan keeps a memory fit. -/
theorem Loader.scan_fits {size : Nat} (n : Nat) {l : Loader} (lines : List Text) (h : l.mem.fits size) :
    (Loader.scan size n l lines).mem.fits size := by
  induction lines generalizing n l with
  | nil => exact h
  | cons line rest ih => exact ih (n + 1) (Loader.onRecord_fits _ h)

/-- One relocation changes memory and the report, and nothing else (R276, R277). -/
theorem Loader.applyEntry_keeps (size k : Nat) (l : Loader) (e : ModEntry) :
    l.applyEntry size k e =
      { l with mem := (l.applyEntry size k e).mem, report := (l.applyEntry size k e).report } := by
  unfold Loader.applyEntry
  split
  · rfl
  · split <;> rfl

/-- Relocation changes memory and the report, and nothing else. -/
theorem Loader.applyAll_keeps (size k : Nat) (l : Loader) (es : List ModEntry) :
    Loader.applyAll size k l es =
      { l with mem := (Loader.applyAll size k l es).mem, report := (Loader.applyAll size k l es).report } := by
  induction es generalizing k l with
  | nil => rfl
  | cons e rest ih =>
    rw [Loader.applyAll, ih (k + 1) (l.applyEntry size k e), Loader.applyEntry_keeps]

/-- One relocation keeps a memory fit. -/
theorem Loader.applyEntry_fits {size k : Nat} {l : Loader} (e : ModEntry) (h : l.mem.fits size) :
    (l.applyEntry size k e).mem.fits size := by
  unfold Loader.applyEntry
  split
  · exact h
  · split
    · exact Memory.fits_writeList h (by assumption)
    · exact h

/-- Relocation keeps a memory fit. -/
theorem Loader.applyAll_fits {size : Nat} (k : Nat) {l : Loader} (es : List ModEntry) (h : l.mem.fits size) :
    (Loader.applyAll size k l es).mem.fits size := by
  induction es generalizing k l with
  | nil => exact h
  | cons e rest ih => exact ih (k + 1) (Loader.applyEntry_fits e h)

/-- A load keeps a memory fit. -/
theorem loadLines_fits {p : Params} {m : Memory} (lines : List Text) (h : m.fits p.memSize) :
    (loadLines p m lines).mem.fits p.memSize :=
  Loader.applyAll_fits 0 _ (Loader.scan_fits 1 lines h)

end Sys2Proof.Machine
end

