-- ==== Sys2Proof/Laws/PerInstr.lean ====
section
/-! SUPPORT. The per-instruction family `Encodable`: under the default opcode map an instruction encodes to as many
bytes as its length says (spec/30_encoding.md R80, R86). -/

namespace Sys2Proof

@[simp] theorem encodeMem_length (code : OpCode) (m : MemOp) : (encodeMem code m).length = m.len := by
  unfold encodeMem MemOp.len
  cases m.e <;> rfl

@[simp] theorem encodeReg_length (code : OpCode) (r1 r2 : RegNo) : (encodeReg code r1 r2).length = 2 := rfl

/-- The encoding has the instruction's length, and there is one. -/
def Laws.Encodable.Statement (i : Instr) : Prop :=
  (encode i).length = i.len ∧ (encodeWith standardOpcodeMap i).isSome = true

theorem Laws.Encodable.lda (m : MemOp) : Laws.Encodable.Statement (.lda m) :=
  ⟨encodeMem_length _ m, rfl⟩

theorem Laws.Encodable.ldx (m : MemOp) : Laws.Encodable.Statement (.ldx m) :=
  ⟨encodeMem_length _ m, rfl⟩

theorem Laws.Encodable.ldl (m : MemOp) : Laws.Encodable.Statement (.ldl m) :=
  ⟨encodeMem_length _ m, rfl⟩

theorem Laws.Encodable.ldb (m : MemOp) : Laws.Encodable.Statement (.ldb m) :=
  ⟨encodeMem_length _ m, rfl⟩

theorem Laws.Encodable.lds (m : MemOp) : Laws.Encodable.Statement (.lds m) :=
  ⟨encodeMem_length _ m, rfl⟩

theorem Laws.Encodable.ldt (m : MemOp) : Laws.Encodable.Statement (.ldt m) :=
  ⟨encodeMem_length _ m, rfl⟩

theorem Laws.Encodable.sta (m : MemOp) : Laws.Encodable.Statement (.sta m) :=
  ⟨encodeMem_length _ m, rfl⟩

theorem Laws.Encodable.stx (m : MemOp) : Laws.Encodable.Statement (.stx m) :=
  ⟨encodeMem_length _ m, rfl⟩

theorem Laws.Encodable.stl (m : MemOp) : Laws.Encodable.Statement (.stl m) :=
  ⟨encodeMem_length _ m, rfl⟩

theorem Laws.Encodable.stb (m : MemOp) : Laws.Encodable.Statement (.stb m) :=
  ⟨encodeMem_length _ m, rfl⟩

theorem Laws.Encodable.sts (m : MemOp) : Laws.Encodable.Statement (.sts m) :=
  ⟨encodeMem_length _ m, rfl⟩

theorem Laws.Encodable.stt (m : MemOp) : Laws.Encodable.Statement (.stt m) :=
  ⟨encodeMem_length _ m, rfl⟩

theorem Laws.Encodable.ldch (m : MemOp) : Laws.Encodable.Statement (.ldch m) :=
  ⟨encodeMem_length _ m, rfl⟩

theorem Laws.Encodable.stch (m : MemOp) : Laws.Encodable.Statement (.stch m) :=
  ⟨encodeMem_length _ m, rfl⟩

theorem Laws.Encodable.add (m : MemOp) : Laws.Encodable.Statement (.add m) :=
  ⟨encodeMem_length _ m, rfl⟩

theorem Laws.Encodable.sub (m : MemOp) : Laws.Encodable.Statement (.sub m) :=
  ⟨encodeMem_length _ m, rfl⟩

theorem Laws.Encodable.mul (m : MemOp) : Laws.Encodable.Statement (.mul m) :=
  ⟨encodeMem_length _ m, rfl⟩

theorem Laws.Encodable.div (m : MemOp) : Laws.Encodable.Statement (.div m) :=
  ⟨encodeMem_length _ m, rfl⟩

theorem Laws.Encodable.comp (m : MemOp) : Laws.Encodable.Statement (.comp m) :=
  ⟨encodeMem_length _ m, rfl⟩

theorem Laws.Encodable.tix (m : MemOp) : Laws.Encodable.Statement (.tix m) :=
  ⟨encodeMem_length _ m, rfl⟩

theorem Laws.Encodable.j (m : MemOp) : Laws.Encodable.Statement (.j m) :=
  ⟨encodeMem_length _ m, rfl⟩

theorem Laws.Encodable.jeq (m : MemOp) : Laws.Encodable.Statement (.jeq m) :=
  ⟨encodeMem_length _ m, rfl⟩

theorem Laws.Encodable.jlt (m : MemOp) : Laws.Encodable.Statement (.jlt m) :=
  ⟨encodeMem_length _ m, rfl⟩

theorem Laws.Encodable.jgt (m : MemOp) : Laws.Encodable.Statement (.jgt m) :=
  ⟨encodeMem_length _ m, rfl⟩

theorem Laws.Encodable.jsub (m : MemOp) : Laws.Encodable.Statement (.jsub m) :=
  ⟨encodeMem_length _ m, rfl⟩

theorem Laws.Encodable.rsub (m : MemOp) : Laws.Encodable.Statement (.rsub m) :=
  ⟨encodeMem_length _ m, rfl⟩

theorem Laws.Encodable.td (m : MemOp) : Laws.Encodable.Statement (.td m) :=
  ⟨encodeMem_length _ m, rfl⟩

theorem Laws.Encodable.rd (m : MemOp) : Laws.Encodable.Statement (.rd m) :=
  ⟨encodeMem_length _ m, rfl⟩

theorem Laws.Encodable.wd (m : MemOp) : Laws.Encodable.Statement (.wd m) :=
  ⟨encodeMem_length _ m, rfl⟩

theorem Laws.Encodable.addr (r1 r2 : RegNo) : Laws.Encodable.Statement (.addr r1 r2) := ⟨rfl, rfl⟩

theorem Laws.Encodable.subr (r1 r2 : RegNo) : Laws.Encodable.Statement (.subr r1 r2) := ⟨rfl, rfl⟩

theorem Laws.Encodable.mulr (r1 r2 : RegNo) : Laws.Encodable.Statement (.mulr r1 r2) := ⟨rfl, rfl⟩

theorem Laws.Encodable.divr (r1 r2 : RegNo) : Laws.Encodable.Statement (.divr r1 r2) := ⟨rfl, rfl⟩

theorem Laws.Encodable.compr (r1 r2 : RegNo) : Laws.Encodable.Statement (.compr r1 r2) := ⟨rfl, rfl⟩

theorem Laws.Encodable.rmo (r1 r2 : RegNo) : Laws.Encodable.Statement (.rmo r1 r2) := ⟨rfl, rfl⟩

theorem Laws.Encodable.clear (r1 : RegNo) : Laws.Encodable.Statement (.clear r1) := ⟨rfl, rfl⟩

theorem Laws.Encodable.tixr (r1 : RegNo) : Laws.Encodable.Statement (.tixr r1) := ⟨rfl, rfl⟩

end Sys2Proof
end

