-- ==== Sys2Proof/Tests/Slice0.lean ====
section
/-! SUPPORT. Tests: well-formedness refusals, decodings of words written from the spec's encodings, single steps from
spec/95_test_vectors.md (the vector's name stands in the comment), and a witness for the hypotheses of each
statement. -/

namespace Sys2Proof.Tests
open Sys2Proof Sys2Proof.Machine

/-! ### Helpers -/

/-- Registers of spec/95's single-instruction vectors: PC at 0x100, the others 0. -/
def regs0 : Regs := { Regs.reset with pc := 0x100#24 }

/-- A ready machine with the registers given, code at the PC and data at the addresses given. -/
def start (r : Regs) (code : List Byte) (data : List (Nat × List Byte)) : State :=
  { State.reset with
    regs := r
    mem := data.foldl (fun m d => m.writeList d.1 d.2) (Memory.writeList [] r.pc.toNat code)
    prog := { State.reset.prog with totalLength := 0x10000#24 }
    ready := true }

/-- The state a step continues with. -/
def next? : Host.Outcome State Fault Refusal → Option State
  | .next t => some t
  | .fault _ => none
  | .refused _ => none

/-- What a step stops with, and the state it leaves. -/
def stop? : Host.Outcome State Fault Refusal → Option (StopOutcome × State)
  | .next _ => none
  | .fault (.stopped o t) => some (o, t)
  | .fault .normalHalt => none
  | .fault (.errorHalt _) => none
  | .refused _ => none

/-- The registers after a step. -/
def after (r : Regs) (code : List Byte) (data : List (Nat × List Byte)) : Option Regs :=
  (next? (step (start r code data))).map State.regs

/-- Bytes of memory after a step. -/
def memAfter (r : Regs) (code : List Byte) (data : List (Nat × List Byte)) (a n : Nat) : Option (List Byte) :=
  (next? (step (start r code data))).map (fun t => t.mem.readList a n)

/-- The outcome of a stop, and whether it left registers and memory alone. -/
def stopped (r : Regs) (code : List Byte) (data : List (Nat × List Byte)) : Option (StopOutcome × Bool) :=
  (stop? (step (start r code data))).map (fun p =>
    (p.1, decide (p.2.regs = r ∧ p.2.mem = (start r code data).mem ∧ p.2.ready = false)))

/-- A device side with files known to exist or not, and answers lined up. -/
def devices (known : List (Byte × Bool)) (tests : List Bool) (reads : List (Option Byte))
    (writes : List Bool) : Devices :=
  { known := known, tests := tests, reads := reads, writes := writes, draws := 0, output := [] }

/-- Simple addressing (n = i = 1), direct. -/
def direct (field : BitVec 20) : MemOp := ⟨true, true, false, false, false, false, field⟩

/-- Immediate addressing. -/
def imm (field : BitVec 20) : MemOp := ⟨false, true, false, false, false, false, field⟩

/-- Extended format, simple addressing. -/
def ext (field : BitVec 20) : MemOp := ⟨true, true, false, false, false, true, field⟩

/-- Extended format, indirect addressing. -/
def extIndirect (field : BitVec 20) : MemOp := ⟨true, false, false, false, false, true, field⟩

/-! ### Well-formedness: each check refuses an ill-formed term -/

theorem test_wf_refuses_wide_disp : (Instr.lda (direct 0x1000#20)).wellFormed = false := by decide
theorem test_wf_takes_widest_disp : (Instr.lda (direct 0x0FFF#20)).wellFormed = true := by decide
theorem test_wf_takes_wide_addr : (Instr.lda (ext 0xFFFFF#20)).wellFormed = true := by decide
theorem test_wf_refuses_repeated_code :
    OpcodeMap.distinctCodes ((0x00#6, .ldx) :: standardOpcodeMap) = false := by decide
theorem test_wf_refuses_missing_operation : OpcodeMap.complete standardOpcodeMap.tail = false := by decide
theorem test_wf_refuses_bad_map : OpcodeMap.wellFormed ((0x00#6, .ldx) :: standardOpcodeMap) = false := by
  decide
theorem test_wf_refuses_large_memory :
    Params.wellFormed { Params.default with memSize := 2 ^ 24 + 1 } = false := by decide
theorem test_wf_takes_default : Params.default.wellFormed = true := by decide

/-! ### Decoding: words written out from R82 to R84 and the opcodes of R88 -/

/-- Bit by bit: opcode 000000, n 1, i 0; x 0, b 0, p 1, e 0; disp 1110_1111_0001 (R83, R88). -/
theorem test_decode_bits_format3 : decodeTableWord 24 0b000000_1_0_0_0_1_0_111011110001 =
    some (.lda ⟨true, false, false, false, true, false, 0xEF1#20⟩) := by decide

/-- Bit by bit: opcode 010010 (JSUB, 0x48), n 1, i 1; x 1, b 1, p 0, e 1; addr 1000_0000_0000_0000_0011
(R84). -/
theorem test_decode_bits_format4 : decodeTableWord 32 0b010010_1_1_1_1_0_1_10000000000000000011 =
    some (.jsub ⟨true, true, true, true, false, true, 0x80003#20⟩) := by decide

/-- Bit by bit: opcode 101000 (COMPR, 0xA0), bits 1:0 unexamined, r1 1001, r2 0100 (R82, R92). -/
theorem test_decode_bits_format2 : decodeTableWord 16 0b101000_01_1001_0100 = some (.compr 9#4 4#4) := by
  decide

theorem test_decode_loads :
    [0x030123, 0x070123, 0x0B0123, 0x6B0123, 0x6F0123, 0x770123, 0x530123].map (decodeTableWord 24) =
      [Instr.lda, .ldx, .ldl, .ldb, .lds, .ldt, .ldch].map (fun c => some (c (direct 0x123#20))) := by decide

theorem test_decode_stores :
    [0x0F0123, 0x130123, 0x170123, 0x7B0123, 0x7F0123, 0x870123, 0x570123].map (decodeTableWord 24) =
      [Instr.sta, .stx, .stl, .stb, .sts, .stt, .stch].map (fun c => some (c (direct 0x123#20))) := by decide

theorem test_decode_arithmetic :
    [0x1B0123, 0x1F0123, 0x230123, 0x270123].map (decodeTableWord 24) =
      [Instr.add, .sub, .mul, .div].map (fun c => some (c (direct 0x123#20))) := by decide

theorem test_decode_compare :
    [0x2B0123, 0x2F0123].map (decodeTableWord 24) =
      [Instr.comp, .tix].map (fun c => some (c (direct 0x123#20))) := by decide

theorem test_decode_control :
    [0x3F0123, 0x330123, 0x3B0123, 0x370123, 0x4B0123, 0x4F0123].map (decodeTableWord 24) =
      [Instr.j, .jeq, .jlt, .jgt, .jsub, .rsub].map (fun c => some (c (direct 0x123#20))) := by decide

theorem test_decode_device :
    [0xE30123, 0xDB0123, 0xDF0123].map (decodeTableWord 24) =
      [Instr.td, .rd, .wd].map (fun c => some (c (direct 0x123#20))) := by decide

theorem test_decode_register :
    [0x9015, 0x9415, 0x9815, 0x9C15, 0xA015, 0xAC15, 0xB410, 0xB810].map (decodeTableWord 16) =
      [some (.addr 1#4 5#4), some (.subr 1#4 5#4), some (.mulr 1#4 5#4), some (.divr 1#4 5#4),
        some (.compr 1#4 5#4), some (.rmo 1#4 5#4), some (.clear 1#4), some (.tixr 1#4)] := by decide

/-- FIX (0xC4) is not of this core (R91, vector U3). -/
theorem test_decode_refuses_unknown : decodeTableWord 24 0xC40000 = none := by decide

/-- What withFetchWord places, the next step runs: `LDA #5` as the first instruction. -/
theorem test_withFetchWord_runs :
    (next? (step (State.reset.withFetchWord 24 0x010005))).map State.regs =
      some { Regs.reset with a := 5#24, pc := 3#24 } := by decide

/-! ### Single steps: loads and stores -/

/-- A6: PC-relative with a negative displacement. -/
theorem test_lda_pc_relative : after regs0 [0x03#8, 0x2E#8, 0xFD#8] [(0, [0xAB#8, 0xCD#8, 0xEF#8])] =
    some { regs0 with a := 0xABCDEF#24, pc := 0x103#24 } := by decide

/-- A18: the pointer is in bounds, the operand is not. -/
theorem test_lda_indirect_bounds : stopped regs0 [0x02#8, 0x20#8, 0x10#8] [(0x113, [0x00#8, 0xFF#8, 0xFE#8])] =
    some (.errorHalt .memBounds, true) := by decide

/-- LS10: the index is the old X. -/
theorem test_ldx_own_index : after { regs0 with x := 2#24 } [0x07#8, 0x82#8, 0x00#8]
    [(0x202, [0x00#8, 0x00#8, 0x09#8])] = some { regs0 with x := 9#24, pc := 0x103#24 } := by decide

/-- LS8's address for LDL: the highest word address. -/
theorem test_ldl_highest : after regs0 [0x0B#8, 0x10#8, 0xFF#8, 0xFD#8] [(0xFFFD, [0x01#8, 0x02#8, 0x03#8])] =
    some { regs0 with l := 0x010203#24, pc := 0x104#24 } := by decide

/-- LS12. -/
theorem test_ldb_extended : after regs0 [0x6B#8, 0x10#8, 0x04#8, 0x00#8] [(0x400, [0x00#8, 0x01#8, 0x80#8])] =
    some { regs0 with b := 0x000180#24, pc := 0x104#24 } := by decide

/-- A3's field for LDS: a 20-bit field is never sign-extended. -/
theorem test_lds_addr20 : after regs0 [0x6D#8, 0x1F#8, 0xFF#8, 0xFF#8] [] =
    some { regs0 with s := 0x0FFFFF#24, pc := 0x104#24 } := by decide

/-- A7's addressing for LDT: base-relative. -/
theorem test_ldt_base : after { regs0 with b := 0x180#24 } [0x77#8, 0x40#8, 0x80#8]
    [(0x200, [0x12#8, 0x34#8, 0x56#8])] =
    some { regs0 with b := 0x180#24, t := 0x123456#24, pc := 0x103#24 } := by decide

/-- LS1: big-endian, and no byte beside the three. -/
theorem test_sta_bytes : memAfter { regs0 with a := 0xABCDEF#24 } [0x0F#8, 0x02#8, 0x00#8]
    [(0x1FF, [0x11#8]), (0x203, [0x22#8])] 0x1FF 5 = some [0x11#8, 0xAB#8, 0xCD#8, 0xEF#8, 0x22#8] := by decide

/-- LS2: a store rejects immediate addressing. -/
theorem test_sta_immediate : stopped { regs0 with a := 1#24 } [0x0D#8, 0x00#8, 0x05#8] [] =
    some (.errorHalt .immediateNotAllowed, true) := by decide

/-- Hand-worked from R148: STX 0x200,X stores X at 0x200 + X. -/
theorem test_stx_indexed : memAfter { regs0 with x := 4#24 } [0x13#8, 0x82#8, 0x00#8] [] 0x204 3 =
    some [0x00#8, 0x00#8, 0x04#8] := by decide

/-- LS11: the store goes through the pointer. -/
theorem test_stl_indirect : memAfter { regs0 with l := 0x42#24 } [0x16#8, 0x03#8, 0x00#8]
    [(0x300, [0x00#8, 0x02#8, 0x10#8])] 0x210 3 = some [0x00#8, 0x00#8, 0x42#8] := by decide

/-- LS13. -/
theorem test_stb_extended : memAfter { regs0 with b := 0x180#24 } [0x7B#8, 0x10#8, 0x04#8, 0x00#8] [] 0x400 3 =
    some [0x00#8, 0x01#8, 0x80#8] := by decide

/-- LS3's bounds for STS: one byte past the highest word address. -/
theorem test_sts_bounds : stopped { regs0 with s := 1#24 } [0x7F#8, 0x10#8, 0xFF#8, 0xFE#8] [] =
    some (.errorHalt .memBounds, true) := by decide

/-- Hand-worked from R152. -/
theorem test_stt_direct : memAfter { regs0 with t := 0x010203#24 } [0x87#8, 0x02#8, 0x00#8] [] 0x200 3 =
    some [0x01#8, 0x02#8, 0x03#8] := by decide

/-- LS4: the high sixteen bits of A are kept. -/
theorem test_ldch_low_byte : after { regs0 with a := 0x123456#24 } [0x53#8, 0x02#8, 0x00#8] [(0x200, [0x9A#8])] =
    some { regs0 with a := 0x12349A#24, pc := 0x103#24 } := by decide

/-- LS7: the last byte is writable. -/
theorem test_stch_last_byte : memAfter { regs0 with a := 0x41#24 } [0x57#8, 0x10#8, 0xFF#8, 0xFF#8] [] 0xFFFF 1 =
    some [0x41#8] := by decide

/-! ### Single steps: arithmetic -/

/-- AR1: overflow wraps, and no flag changes. -/
theorem test_add_wraps : after { regs0 with a := 0x7FFFFF#24 } [0x19#8, 0x00#8, 0x01#8] [] =
    some { regs0 with a := 0x800000#24, pc := 0x103#24 } := by decide

/-- AR2. -/
theorem test_sub_borrows : after regs0 [0x1D#8, 0x00#8, 0x01#8] [] =
    some { regs0 with a := 0xFFFFFF#24, pc := 0x103#24 } := by decide

/-- AR3. -/
theorem test_mul_signed : after { regs0 with a := 0xFFFFFF#24 } [0x21#8, 0x00#8, 0x03#8] [] =
    some { regs0 with a := 0xFFFFFD#24, pc := 0x103#24 } := by decide

/-- AR5: 7 / -2 truncates toward zero. -/
theorem test_div_truncates : after { regs0 with a := 7#24 } [0x27#8, 0x02#8, 0x00#8]
    [(0x200, [0xFF#8, 0xFF#8, 0xFE#8])] = some { regs0 with a := 0xFFFFFD#24, pc := 0x103#24 } := by decide

/-- AR7. -/
theorem test_div_zero : stopped { regs0 with a := 9#24 } [0x25#8, 0x00#8, 0x00#8] [] =
    some (.errorHalt .divZero, true) := by decide

/-- F2l: a register operation may write SW. -/
theorem test_addr_to_sw : after { regs0 with a := 5#24 } [0x90#8, 0x09#8] [] =
    some { regs0 with a := 5#24, sw := 5#24, pc := 0x102#24 } := by decide

/-- F2b: r2 - r1. -/
theorem test_subr_order : after { regs0 with s := 5#24, a := 4#24 } [0x94#8, 0x40#8] [] =
    some { regs0 with s := 5#24, a := 0xFFFFFF#24, pc := 0x102#24 } := by decide

/-- F2c: the low 24 bits of the product. -/
theorem test_mulr_low_bits : after { regs0 with s := 0x1000#24, t := 0x1000#24 } [0x98#8, 0x45#8] [] =
    some { regs0 with s := 0x1000#24, t := 0#24, pc := 0x102#24 } := by decide

/-- F2d: -7 / 2. -/
theorem test_divr_truncates : after { regs0 with a := 0xFFFFF9#24, s := 2#24 } [0x9C#8, 0x40#8] [] =
    some { regs0 with a := 0xFFFFFD#24, s := 2#24, pc := 0x102#24 } := by decide

/-- F2f: index 10 reads 0, so the divisor is zero. -/
theorem test_divr_zero : stopped { regs0 with a := 5#24 } [0x9C#8, 0xA0#8] [] =
    some (.errorHalt .divZero, true) := by decide

/-- F2h: a write to the PC's index is lost to the next-PC commit. -/
theorem test_rmo_to_pc : after { regs0 with a := 0x300#24 } [0xAC#8, 0x08#8] [] =
    some { regs0 with a := 0x300#24, pc := 0x102#24 } := by decide

/-- F2i: the PC reads as the instruction's own address. -/
theorem test_rmo_from_pc : after regs0 [0xAC#8, 0x80#8] [] =
    some { regs0 with a := 0x100#24, pc := 0x102#24 } := by decide

/-- F2j. -/
theorem test_clear_sw : after { regs0 with sw := 2#24 } [0xB4#8, 0x90#8] [] =
    some { regs0 with pc := 0x102#24 } := by decide

/-! ### Single steps: compare -/

/-- C4: the comparison is signed. -/
theorem test_comp_signed : after { regs0 with a := 0x800000#24 } [0x2B#8, 0x02#8, 0x00#8]
    [(0x200, [0x7F#8, 0xFF#8, 0xFF#8])] = some { regs0 with a := 0x800000#24, sw := 1#24, pc := 0x103#24 } := by
  decide

/-- C3. -/
theorem test_comp_greater : after { regs0 with a := 7#24 } [0x29#8, 0x00#8, 0x05#8] [] =
    some { regs0 with a := 7#24, sw := 2#24, pc := 0x103#24 } := by decide

/-- C12: SW is read before it is written. -/
theorem test_compr_sw : after { regs0 with a := 1#24, sw := 1#24 } [0xA0#8, 0x90#8] [] =
    some { regs0 with a := 1#24, pc := 0x102#24 } := by decide

/-- C9: the operand is read with the old X. -/
theorem test_tix_old_index : after { regs0 with x := 2#24 } [0x2F#8, 0x82#8, 0x00#8]
    [(0x202, [0x00#8, 0x00#8, 0x03#8])] = some { regs0 with x := 3#24, pc := 0x103#24 } := by decide

/-- C7: the incremented X is negative. -/
theorem test_tix_wraps : after { regs0 with x := 0x7FFFFF#24 } [0x2D#8, 0x00#8, 0x00#8] [] =
    some { regs0 with x := 0x800000#24, sw := 1#24, pc := 0x103#24 } := by decide

/-- C8: TIXR X gives EQ. -/
theorem test_tixr_x : after { regs0 with x := 9#24, sw := 1#24 } [0xB8#8, 0x10#8] [] =
    some { regs0 with x := 10#24, pc := 0x102#24 } := by decide

/-- C11: the old SW is compared. -/
theorem test_tixr_sw : after { regs0 with x := 1#24, sw := 2#24 } [0xB8#8, 0x90#8] [] =
    some { regs0 with x := 2#24, pc := 0x102#24 } := by decide

/-! ### Single steps: control transfer -/

/-- J1. -/
theorem test_j_backward : after { regs0 with pc := 9#24 } [0x3F#8, 0x2F#8, 0xF4#8] [] = some Regs.reset := by
  decide

/-- J5: a non-CC value of SW takes no jump. -/
theorem test_jeq_other : after { regs0 with sw := 5#24 } [0x33#8, 0x20#8, 0x10#8] [] =
    some { regs0 with sw := 5#24, pc := 0x103#24 } := by decide

/-- J4. -/
theorem test_jeq_taken : after regs0 [0x33#8, 0x20#8, 0x10#8] [] = some { regs0 with pc := 0x113#24 } := by
  decide

/-- J6. -/
theorem test_jlt_taken : after { regs0 with pc := 0xF#24, sw := 1#24 } [0x3B#8, 0x2F#8, 0xF7#8] [] =
    some { regs0 with pc := 9#24, sw := 1#24 } := by decide

/-- J7. -/
theorem test_jgt_taken : after { regs0 with pc := 0x200#24, sw := 2#24 } [0x37#8, 0x01#8, 0x00#8] [] =
    some { regs0 with pc := 0x100#24, sw := 2#24 } := by decide

/-- J14: the pointer is read before L is written. -/
theorem test_jsub_indirect : after { regs0 with l := 0x999#24 } [0x4A#8, 0x03#8, 0x00#8]
    [(0x300, [0x00#8, 0x05#8, 0x00#8])] = some { regs0 with l := 0x103#24, pc := 0x500#24 } := by decide

/-- J12: L is unchanged. -/
theorem test_jsub_immediate : stopped regs0 [0x49#8, 0x00#8, 0x05#8] [] =
    some (.errorHalt .immediateNotAllowed, true) := by decide

/-- J10. -/
theorem test_rsub_returns :
    (next? (step (start { regs0 with l := 0x400#24 } [0x4F#8, 0x00#8, 0x00#8] []))).map
      (fun t => (t.regs.pc, t.retFlag)) = some (0x400#24, true) := by decide

/-- J17: the normal halt of `RSUB_POLICY = HALT`. -/
theorem test_rsub_halts :
    (stop? (step { start { regs0 with l := 0x400#24 } [0x4F#8, 0x00#8, 0x00#8] [] with
      params := { Params.default with rsub := .halt } })).map (fun p => (p.1, p.2.regs.pc, p.2.ready)) =
      some (.normalHalt, 0x100#24, false) := by decide

/-! ### Single steps: devices -/

/-- D9. -/
theorem test_td_ready :
    (next? (step { start regs0 [0xE3#8, 0x02#8, 0x00#8] [(0x200, [0xF1#8])] with
      dev := devices [(0xF1#8, true)] [true] [] [] })).map (fun t => (t.regs.sw, t.dev.tests)) =
      some (1#24, []) := by decide

/-- D2. -/
theorem test_td_missing :
    (next? (step { start regs0 [0xE3#8, 0x02#8, 0x00#8] [(0x200, [0x05#8])] with
      dev := devices [(0x05#8, false)] [true] [] [] })).map (fun t => (t.regs.sw, t.dev.tests)) =
      some (0#24, [true]) := by decide

/-- D4. -/
theorem test_rd_byte :
    (next? (step { start { regs0 with a := 0x123456#24 } [0xD9#8, 0x00#8, 0xF1#8] [] with
      dev := devices [(0xF1#8, true)] [] [some 0x41#8] [] })).map (fun t => t.regs.a) = some 0x123441#24 := by
  decide

/-- D3. -/
theorem test_rd_missing :
    (next? (step { start { regs0 with a := 0x123456#24 } [0xD9#8, 0x00#8, 0x05#8] [] with
      dev := devices [(0x05#8, false)] [] [] [] })).map (fun t => t.regs.a) = some 0x123400#24 := by decide

/-- D10, and D5's record of the byte. -/
theorem test_wd_output :
    (next? (step { start { regs0 with a := 0x41#24 } [0xDF#8, 0x10#8, 0xFF#8, 0xFF#8] [(0xFFFF, [0x01#8])] with
      dev := devices [] [] [] [true] })).map (fun t => (t.dev.output, t.regs.pc)) =
      some ([(0x01#8, 0x41#8)], 0x104#24) := by decide

/-! ### The controller and the fetch -/

/-- U2: the resolver comes before the dispatch. -/
theorem test_unknown_resolves_first : stopped regs0 [0x42#8, 0x10#8, 0xFF#8, 0xFE#8] [] =
    some (.errorHalt .indirectBounds, true) := by decide

/-- U6: four bytes are needed at 0xFFFE. -/
theorem test_fetch_short : stopped { regs0 with pc := 0xFFFE#24 } [0x03#8, 0x10#8] [] =
    some (.errorHalt .fetchShort, true) := by decide

/-- K1: reset is not ready. -/
theorem test_reset_not_ready : (stop? (step State.reset)).map Prod.fst = some .notReady := by decide

/-- K7: after init with nothing loaded. -/
theorem test_nothing_loaded : (stop? (step State.reset.init)).map Prod.fst = some (.errorHalt .pcRange) := by
  decide

/-! ### The loader -/

/-- S4. -/
theorem test_load_s4 :
    let r := State.reset.load
      ["HCOPY  000000001000".toList, "DRETADR00002D".toList, "T00000003172027".toList, ['E']]
    (r.1.prog.entry, r.1.prog.totalLength, r.1.prog.progName, r.1.mem.readList 0 4, r.2) =
      (0#24, 0x1000#24, "COPY".toList, [0x17#8, 0x20#8, 0x27#8, 0x00#8], []) := by decide

/-- LD1: a width-5 edit keeps the high nibble of its first byte, and carries out of the field are lost. -/
theorem test_load_ld1 :
    let r := State.reset.load
      ["HA     000000000010".toList, "T0000000431FFFFF0".toList, "M00000105+B".toList, ['E'],
        "HB     000000000020".toList, ['E']]
    (r.1.prog.totalLength, r.1.mem.readList 0 4, r.2) =
      (0x30#24, [0x31#8, 0xF0#8, 0x00#8, 0x00#8], []) := by decide

/-- LD4: an unresolved entry is reported, and the next still applies. -/
theorem test_load_ld4 :
    let r := State.reset.load
      ["HA     000000000010".toList, "T00000003000001".toList, "M00000006+NOPE".toList, "M00000006+A".toList,
        ['E']]
    (r.1.mem.readList 0 3, r.2) = ([0x00#8, 0x00#8, 0x01#8], [.entry 0 .unresolved]) := by decide

/-- LD8 and LD12: a short trailing group, an unknown letter and a blank line. -/
theorem test_load_reports :
    (State.reset.load
      ["HA     000000000010".toList, "DX     000001Y     0000".toList, "X garbage".toList, [], ['E']]).2 =
      [.line 2 .malformed, .line 3 .unknownRecord] := by decide

/-! ### Witnesses: states and operands that meet the hypotheses of each statement, at the edges of their ranges -/

/-- A ready machine whose last three bytes of memory are 00 02 F1. -/
def top : State := start { regs0 with a := 0x123456#24, x := 7#24, l := 0x400#24 } [0x03#8, 0x10#8, 0xFF#8, 0xFD#8]
  [(0xFFFD, [0x00#8, 0x02#8, 0xF1#8])]

/-- The same machine with a PC, and with a policy. -/
def topAt (pc : Word) : State := { top with regs := { top.regs with pc := pc } }
def topWith (p : Params) : State := { top with params := p }

theorem top_wf : top.mem.wf := by decide

theorem witness_DecodeOfEncode :
    standardOpcodeMap.wellFormed = true ∧ (Instr.lda (direct 0xFFF#20)).wellFormed = true ∧
    (Instr.jsub (ext 0xFFFFF#20)).wellFormed = true ∧ (Instr.rmo 15#4 15#4).wellFormed = true := by decide

theorem witness_DecodedBytes :
    decode [0x4B#8, 0x1F#8, 0xFF#8, 0xFF#8, 0xAA#8] = .ok (.jsub (ext 0xFFFFF#20), [0xAA#8]) ∧
    decode [0x93#8, 0xFF#8] = .ok (.addr 15#4 15#4, []) ∧
    decode [0xB6#8, 0x1F#8] = .ok (.clear 1#4, []) := by decide

/-- The fetch's clauses: PC past memory; format 2 at 0xFFFE and 0xFFFF; byte 1 absent; format 3 at 0xFFFD and
0xFFFE; format 4 at 0xFFFC and 0xFFFD. -/
theorem witness_Fetch :
    fetch (topAt 0x10000#24) = .error .pcBounds ∧
    fetch (start { regs0 with pc := 0xFFFE#24 } [0x90#8, 0x40#8] []) = .ok [0x90#8, 0x40#8] ∧
    fetch (start { regs0 with pc := 0xFFFF#24 } [0x90#8] []) = .error .fetchShort ∧
    fetch (start { regs0 with pc := 0xFFFF#24 } [0x03#8] []) = .error .fetchShort ∧
    fetch (start { regs0 with pc := 0xFFFD#24 } [0x03#8, 0x20#8, 0x01#8] []) = .ok [0x03#8, 0x20#8, 0x01#8] ∧
    fetch (start { regs0 with pc := 0xFFFE#24 } [0x03#8, 0x20#8] []) = .error .fetchShort ∧
    fetch (start { regs0 with pc := 0xFFFC#24 } [0x03#8, 0x10#8, 0x00#8, 0x01#8] []) =
      .ok [0x03#8, 0x10#8, 0x00#8, 0x01#8] ∧
    fetch (start { regs0 with pc := 0xFFFD#24 } [0x03#8, 0x10#8, 0x00#8] []) = .error .fetchShort := by decide

/-- Each clause of the field's reading at its extreme values. -/
theorem witness_Field :
    (ext 0xFFFFF#20).fieldValue = 1048575 ∧
    (MemOp.mk true true false true false false 0x800#20).fieldValue = -2048 ∧
    (MemOp.mk true true false false true false 0x7FF#20).fieldValue = 2047 ∧
    (MemOp.mk false false false false false false 0xFFF#20).fieldValue = -1 ∧
    (direct 0xFFF#20).fieldValue = 4095 ∧ (imm 0x000#20).fieldValue = 0 := by decide

/-- Each clause of the mode table, the pointer at the last address that has three bytes and at the next. -/
theorem witness_Resolver :
    resolve (imm 0x7FF#20) top = .ok (.imm 0x7FF#24) ∧
    resolve ⟨false, true, true, false, false, false, 5#20⟩ (topWith { Params.default with immRel := .textbook }) =
      .ok (.imm 0x00000C#24) ∧
    resolve (direct 0x200#20) top = .ok (.mem 0x200#24) ∧
    resolve ⟨false, false, false, false, false, false, 0xF00#20⟩ top = .ok (.mem 0xFFFF00#24) ∧
    resolve (extIndirect 0xFFFD#20) top = .ok (.mem 0x0002F1#24) ∧
    resolve (extIndirect 0xFFFE#20) top = .error .indirectBounds := by decide

/-- A stored slot, a slot that is not stored, and two different slots. -/
theorem witness_RegisterFile :
    let stored := fun (p : Reg67Policy) (n : RegNo) => n.toNat ≤ 9 ∧ (p = .zero → n.toNat ≠ 6 ∧ n.toNat ≠ 7)
    stored .storage 6#4 ∧ stored .zero 9#4 ∧ ¬ stored .zero 6#4 ∧ ¬ stored .storage 10#4 ∧
      (3#4 : RegNo) ≠ 4#4 := by decide

theorem witness_ByteReadAfterWrite : Memory.wf [(5, 1#8), (0xFFFF, 2#8)] := by decide

theorem witness_CanonicalMemories :
    Memory.wf [(5, 1#8)] ∧ Memory.wf (Memory.write [] 5 1#8) ∧
      ∀ a, Memory.read [(5, 1#8)] a = (Memory.write [] 5 1#8).read a :=
  ⟨by decide, by decide, fun _ => rfl⟩

theorem witness_WordStore : Memory.wf top.mem := top_wf

/-- A word operand as an immediate, at the highest word address, and zero. -/
theorem witness_WordOperand :
    WordOperand (imm 0x7FF#20) top 0x7FF#24 ∧ WordOperand (ext 0xFFFD#20) top 0x0002F1#24 ∧
    WordOperand (imm 0#20) top 0#24 :=
  ⟨.inl (by decide), .inr ⟨0xFFFD#24, by decide, by decide, by decide⟩, .inl (by decide)⟩

/-- A byte operand as an immediate and at the last address. -/
theorem witness_ByteOperand :
    ByteOperand (imm 0x1FF#20) top 0xFF#8 ∧ ByteOperand (ext 0xFFFF#20) top 0xF1#8 :=
  ⟨.inl ⟨0x1FF#24, by decide, by decide⟩, .inr ⟨0xFFFF#24, by decide, by decide, by decide⟩⟩

/-- Effective addresses of stores whose last byte is the last of memory. -/
theorem witness_StoreAddress :
    top.mem.wf ∧
    resolve (ext 0xFFFD#20) top = .ok (.mem 0xFFFD#24) ∧ top.InBounds (0xFFFD#24 : Word).toNat 3 ∧
    resolve (ext 0xFFFF#20) top = .ok (.mem 0xFFFF#24) ∧ top.InBounds (0xFFFF#24 : Word).toNat 1 := by decide

/-- DIV: the quotient that wraps, and another. -/
theorem witness_Div :
    let s := start { regs0 with a := 0x800000#24 } [] [(0x200, [0xFF#8, 0xFF#8, 0xFF#8])]
    WordOperand (direct 0x200#20) s 0xFFFFFF#24 ∧ s.regs.a = 0x800000#24 ∧ (0xFFFFFF#24 : Word) ≠ 0#24 ∧
      WordOperand (imm 2#20) s 2#24 ∧ (2#24 : Word) ≠ 0#24 :=
  ⟨.inr ⟨0x200#24, by decide, by decide, by decide⟩, by decide, by decide, .inl (by decide), by decide⟩

theorem witness_Divr : top.regs.read top.params.reg67 RegNo.X ≠ 0#24 := by decide

theorem witness_Jump : resolve (ext 0xFFFFF#20) top = .ok (.mem 0x0FFFFF#24) := by decide

/-- A conditional jump: its code held, another held, and immediate addressing. -/
theorem witness_ConditionalJump :
    (Instr.jeq (direct 9#20), (0#24 : Word)) ∈ [(Instr.jeq (direct 9#20), 0x000000#24),
      (.jlt (direct 9#20), 0x000001#24), (.jgt (direct 9#20), 0x000002#24)] ∧
    resolve (direct 9#20) top = .ok (.mem 9#24) ∧ top.regs.sw = 0#24 ∧ top.regs.sw ≠ 2#24 ∧
    (imm 5#20).n = false ∧ (imm 5#20).i = true := by decide

theorem witness_Rsub :
    resolve (imm 0#20) top = .ok (.imm 0#24) ∧ top.params.rsub = .jumpL ∧
      resolve (imm 0#20) (topWith { Params.default with rsub := .halt }) = .ok (.imm 0#24) ∧
      (topWith { Params.default with rsub := .halt }).params.rsub = .halt := by decide

/-- RD: a byte and the end of stream; WD: a write that succeeds to a device file and one that fails. -/
theorem witness_DeviceAnswers :
    (devices [(0xF1#8, true)] [] [some 0x41#8] []).readAnswer 0xF1#8 = some 0x41#8 ∧
    (devices [(0xF1#8, false)] [] [some 0x41#8] []).readAnswer 0xF1#8 = none ∧
    (devices [] [] [] [true]).writeOk 0xF1#8 0x41#8 = true ∧
    (devices [] [] [] [false]).writeOk 0xF1#8 0x41#8 = false := by decide

/-- The last console id and the first file id, whose file is missing. -/
theorem witness_Console :
    ByteOperand (imm 2#20) { top with dev := devices [(3#8, false)] [] [] [] } 2#8 ∧
    ByteOperand (imm 3#20) { top with dev := devices [(3#8, false)] [] [] [] } 3#8 ∧
    (devices [(3#8, false)] [] [] []).fileExists 3#8 = false :=
  ⟨.inl ⟨2#24, by decide, by decide⟩, .inl ⟨3#24, by decide, by decide⟩, by decide⟩

theorem witness_BadPointer :
    (Instr.rsub (extIndirect 0xFFFE#20)).memOp? = some (extIndirect 0xFFFE#20) ∧
      ¬ top.InBounds (targetAddress (extIndirect 0xFFFE#20) top).toNat 3 := by decide

theorem witness_ImmediateRejected :
    (Instr.jgt (imm 5#20)).memOp? = some (imm 5#20) ∧ needsAddress (.jgt (imm 5#20)) = true ∧
      (imm 5#20).n = false ∧ (imm 5#20).i = true := by decide

/-- One byte short of a word, and one past the last byte. -/
theorem witness_OperandOutside :
    resolve (ext 0xFFFE#20) top = .ok (.mem 0xFFFE#24) ∧ 0 < dataWidth (.sta (ext 0xFFFE#20)) ∧
      top.params.memSize < (0xFFFE#24 : Word).toNat + dataWidth (.sta (ext 0xFFFE#20)) ∧
      resolve (ext 0x10000#20) top = .ok (.mem 0x10000#24) ∧
      top.params.memSize < (0x10000#24 : Word).toNat + dataWidth (.td (ext 0x10000#20)) := by decide

theorem witness_ZeroDivisor :
    WordOperand (imm 0#20) top 0#24 ∧ top.regs.read top.params.reg67 10#4 = 0#24 :=
  ⟨.inl (by decide), by decide⟩

/-- The premises of completion, for DIV by a nonzero immediate. -/
theorem witness_Completes :
    (∀ m, (Instr.div (imm 2#20)).memOp? = some m →
      (∃ v, resolve m top = .ok (.imm v) ∧ needsAddress (.div (imm 2#20)) = false) ∨
        (∃ ea, resolve m top = .ok (.mem ea) ∧
          (dataWidth (.div (imm 2#20)) = 0 ∨ top.InBounds ea.toNat (dataWidth (.div (imm 2#20)))))) ∧
    (∀ m, Instr.div (imm 2#20) = .div m → ¬ WordOperand m top 0#24) ∧
    (∀ r1 r2, Instr.div (imm 2#20) = .divr r1 r2 → top.regs.read top.params.reg67 r1 ≠ 0#24) ∧
    ((Instr.div (imm 2#20)).op = .rsub → top.params.rsub = .jumpL) := by
  have hr : resolve (imm 2#20) top = .ok (.imm 2#24) := by decide
  refine ⟨fun m h => ?_, fun m h hw => ?_, fun _ _ h => ?_, fun h => ?_⟩
  · cases h
    exact .inl ⟨2#24, hr, rfl⟩
  · cases h
    rcases hw with h | ⟨ea, h, -⟩
    · rw [hr] at h
      exact absurd h (by decide)
    · rw [hr] at h
      cases h
  · cases h
  · exact absurd h (by decide)

/-- A register instruction that answers, a register it does not write, and one that is not the PC. -/
theorem witness_RegisterFrame :
    (∃ t, exec (.rmo 0#4 5#4) top = .next t) ∧ (3#4 : RegNo) ∉ writtenRegs (.rmo 0#4 5#4) ∧
      (3#4 : RegNo) ≠ 8#4 :=
  ⟨⟨_, rfl⟩, by decide, by decide⟩

/-- A store that answers, the bytes just outside the stored ones, and a load, which stores none. -/
theorem witness_MemoryFrame :
    top.mem.wf ∧ (next? (exec (.sta (direct 0x200#20)) top)).isSome = true ∧
      storeRange (.sta (direct 0x200#20)) top = some (0x200, 3) ∧
      (next? (exec (.lda (direct 0x200#20)) top)).isSome = true ∧
      storeRange (.lda (direct 0x200#20)) top = none := by decide

/-- An instruction that answers and one that halts, neither touching a device. -/
theorem witness_Frame :
    (next? (exec (.lda (direct 0x200#20)) top)).isSome = true ∧ touchesDevice (.lda (direct 0x200#20)) = false ∧
      exec (.lda (ext 0xFFFE#20)) top = .fault (.errorHalt .memBounds) :=
  ⟨by decide, rfl, rfl⟩

/-- The bytes at the PC decode, and the instruction answers; it halts with an error; it halts normally. -/
theorem witness_StepRuns :
    let div0 := start regs0 [0x25#8, 0x00#8, 0x00#8] []
    let halt := { start regs0 [0x4F#8, 0x00#8, 0x00#8] [] with params := { Params.default with rsub := .halt } }
    (top.runnable ∧ fetch top = .ok [0x03#8, 0x10#8, 0xFF#8, 0xFD#8] ∧
      decodeWith top.params.opcodeMap [0x03#8, 0x10#8, 0xFF#8, 0xFD#8] = .ok (.lda (ext 0xFFFD#20), []) ∧
      (next? (exec (.lda (ext 0xFFFD#20)) top)).isSome = true) ∧
    (div0.runnable ∧ fetch div0 = .ok [0x25#8, 0x00#8, 0x00#8] ∧
      decodeWith div0.params.opcodeMap [0x25#8, 0x00#8, 0x00#8] = .ok (.div (imm 0#20), []) ∧
      exec (.div (imm 0#20)) div0 = .fault (.errorHalt .divZero)) ∧
    (halt.runnable ∧ fetch halt = .ok [0x4F#8, 0x00#8, 0x00#8] ∧
      decodeWith halt.params.opcodeMap [0x4F#8, 0x00#8, 0x00#8] = .ok (.rsub (direct 0#20), []) ∧
      exec (.rsub (direct 0#20)) halt = .fault .normalHalt) :=
  ⟨⟨by decide, by decide, by decide, by decide⟩, ⟨by decide, by decide, by decide, rfl⟩,
    ⟨by decide, by decide, by decide, rfl⟩⟩

/-- An unknown opcode with a bad pointer, and with an operand that resolves. -/
theorem witness_UnknownOpcode :
    let bad := start regs0 [0x42#8, 0x10#8, 0xFF#8, 0xFE#8] []
    let good := start regs0 [0x43#8, 0x00#8, 0x00#8] []
    (bad.runnable ∧ fetch bad = .ok [0x42#8, 0x10#8, 0xFF#8, 0xFE#8] ∧
      decodeWith bad.params.opcodeMap [0x42#8, 0x10#8, 0xFF#8, 0xFE#8] =
        .error (.unknownOpcode 0x10#6 (extIndirect 0xFFFE#20)) ∧
      resolve (extIndirect 0xFFFE#20) bad = .error .indirectBounds) ∧
    (good.runnable ∧ fetch good = .ok [0x43#8, 0x00#8, 0x00#8] ∧
      decodeWith good.params.opcodeMap [0x43#8, 0x00#8, 0x00#8] =
        .error (.unknownOpcode 0x10#6 (direct 0#20)) ∧
      resolve (direct 0#20) good = .ok (.mem 0#24)) := by decide

/-- Not ready; a PC one past the range, under each policy; a fetch that halts. -/
theorem witness_ControllerChecks :
    State.reset.ready = false ∧ (topAt 0x10000#24).ready = true ∧
    ¬ (topAt 0x10000#24).inProgramRange (topAt 0x10000#24).regs.pc ∧ (topAt 0xFFFF#24).runnable ∧
    (topAt 0x10000#24).params.boundsHalt = .rsubNormal ∧
    fetch (topAt 0xFFFF#24) = .error .fetchShort := by decide

theorem witness_ControllerPolicies :
    let s := fun b => { topAt 0x10000#24 with params := { Params.default with boundsHalt := b } }
    (∀ b, (s b).ready = true) ∧ (∀ b, ¬ (s b).inProgramRange (s b).regs.pc) :=
  ⟨fun _ => rfl, fun b => by cases b <;> decide⟩

/-- Stops from a ready machine and from one that is not, and a step that continues. -/
theorem witness_Steps :
    step State.reset = .fault (.stopped .notReady State.reset) ∧ State.reset.ready = false ∧
    (stop? (step (topAt 0xFFFF#24))).isSome = true ∧ (topAt 0xFFFF#24).ready = true ∧
    (next? (step top)).isSome = true :=
  ⟨rfl, rfl, by decide, rfl, by decide⟩

/-- The invariant holds in a state whose step continues and in one whose step stops. -/
theorem witness_Invariant :
    top.Inv ∧ (topAt 0xFFFF#24).Inv ∧ (next? (step top)).isSome = true ∧
      (stop? (step (topAt 0xFFFF#24))).isSome = true := by decide

/-- Both ways a step leaves a state. -/
theorem witness_Leaves : (∃ t, Leaves (step top) t) ∧ Leaves (step State.reset) State.reset :=
  ⟨⟨_, .inl rfl⟩, .inr ⟨.notReady, rfl⟩⟩

/-- RSUB with L one past the program range, 0x400. -/
theorem witness_RsubEnds :
    let s := { start { regs0 with l := 0x400#24 } [0x4F#8, 0x00#8, 0x00#8] [] with
      prog := { State.reset.prog with totalLength := 0x400#24 } }
    s.params.rsub = .jumpL ∧ s.params.boundsHalt = .rsubNormal ∧ fetch s = .ok [0x4F#8, 0x00#8, 0x00#8] ∧
    decodeWith s.params.opcodeMap [0x4F#8, 0x00#8, 0x00#8] = .ok (.rsub (direct 0#20), []) ∧
    (next? (step s)).isSome = true ∧ ¬ s.inProgramRange s.regs.l := by decide

/-- A run that reaches its ceiling of two steps, and one that stops before it. -/
theorem witness_Run :
    (stop? ({ start regs0 [0x3F#8, 0x2F#8, 0xFD#8] [] with
      params := { Params.default with runCeiling := 2 } }).run).map (fun p => (p.1, p.2.steps, p.2.ready)) =
      some (.ceiling, 2, true) ∧
    (stop? State.reset.run).map Prod.fst = some .notReady := by decide

/-- A loader at work on section 0x10 of memory of 65536 bytes. -/
def loading : Loader := { Loader.start Params.default [(0xFFFD, 0x31#8)] with
  csAddr := 0x10#24, estab := [(['B'], 0x10#24)] }

/-- A text record that ends at the last byte, and one that ends one past it. -/
theorem witness_TextRecord :
    loading.mem.wf ∧ (loading.csAddr + 0xFFED#24).toNat + [1#8, 2#8, 3#8].length ≤ 65536 ∧
      65536 < (loading.csAddr + 0xFFEE#24).toNat + [1#8, 2#8, 3#8].length := by decide

/-- An entry whose field is the last three bytes of memory. -/
def lastField (width : ModWidth) (op : ModOp) : ModEntry := ⟨0xFFED#24, width, op, ['B'], 0x10#24⟩

/-- For each width and each operation, an entry that meets every hypothesis; and its field after it is applied,
hand-worked from R276: 310000 and the symbol's address 000010. -/
theorem witness_Relocation :
    loading.mem.wf ∧
    (∀ p ∈ [(lastField .five .plus, 0x310010#24), (lastField .five .minus, 0x30FFF0#24),
        (lastField .six .plus, 0x310010#24), (lastField .six .minus, 0x30FFF0#24)],
      lookupSymbol loading.estab p.1.sym = some 0x10#24 ∧ (p.1.cs + p.1.rel).toNat + 3 ≤ 65536 ∧
        (loading.applyEntry 65536 0 p.1).mem.readWord 0xFFFD = p.2) := by decide

/-- A symbol nobody defines, and a field one byte past the end. -/
theorem witness_BadRelocation :
    lookupSymbol loading.estab ['C'] = none ∧ lookupSymbol loading.estab ['B'] = some 0x10#24 ∧
      65536 < (0x10#24 + 0xFFEE#24 : Word).toNat + 3 := by decide

/-- Before and after an entry address was recorded. -/
theorem witness_Sections : loading.entrySet = false ∧ { loading with entrySet := true }.entrySet = true := by
  decide

/-- A file whose second H record is the first valid one, and a file with none. -/
theorem witness_Load :
    State.reset.Inv ∧ top.Inv ∧
    ["HBAD".toList, "HA     000020000010".toList, "HB     000040000020".toList].findSome?
      (fun line => (parseRecord (stripTerminator line)).headerFields) = some (['A'], 0x20#24) ∧
    ["HBAD".toList, ['E']].findSome? (fun line => (parseRecord (stripTerminator line)).headerFields) = none := by
  decide

end Sys2Proof.Tests
end

section
/-! Reads and writes of the register file by index (spec/10_state.md R22, R23). The proofs split
along the branches of `Regs.write` and `Regs.read`: in both, branches 8 and 10 are slots 6 and 7 under
`REG67_POLICY = ZERO` and branch 13 is the indices from 10, the three without storage. -/

namespace Sys2Proof.Machine

/-- Index `k` has storage: slots 0 to 9, but for slots 6 and 7 under `REG67_POLICY = ZERO` (R22). -/
def HasStorage (p : Reg67Policy) (k : RegNo) : Prop :=
  k.toNat ≤ 9 ∧ (p = .zero → k.toNat ≠ 6 ∧ k.toNat ≠ 7)

/-- The field a write to a slot with storage sets is the one a read of that slot returns. -/
theorem Regs.read_write_same {p : Reg67Policy} {k : RegNo} (hk : HasStorage p k) (r : Regs) (v : Word) :
    (r.write p k v).read p k = v := by
  obtain ⟨hle, h67⟩ := hk
  fun_cases Regs.write p r k v
  case case8 h6 => exact absurd h6 (h67 rfl).1
  case case10 h7 => exact absurd h7 (h67 rfl).2
  case case13 => grind
  all_goals simp [Regs.read, *]

/-- A write sets at most the field of its own slot, and a read of another index does not look at that field. -/
theorem Regs.read_write_of_ne {j k : RegNo} (hjk : j ≠ k) (p : Reg67Policy) (r : Regs) (v : Word) :
    (r.write p k v).read p j = r.read p j := by
  have hslot : j.toNat ≠ k.toNat := fun h => hjk (BitVec.eq_of_toNat_eq h)
  fun_cases Regs.write p r k v
  case case8 | case10 | case13 => rfl
  all_goals
    unfold Regs.read
    split <;> simp_all only [ne_eq, not_true_eq_false]

/-- Only the branches of the write that set no field are left for an index without storage. -/
theorem Regs.write_of_not_hasStorage {p : Reg67Policy} {k : RegNo} (hk : ¬ HasStorage p k) (r : Regs)
    (v : Word) : r.write p k v = r := by
  fun_cases Regs.write p r k v
  case case8 | case10 | case13 => rfl
  all_goals exact absurd ⟨by omega, by simp [*]⟩ hk

/-- Only the branches of the read that answer 0 are left for an index without storage. -/
theorem Regs.read_of_not_hasStorage {p : Reg67Policy} {k : RegNo} (hk : ¬ HasStorage p k) (r : Regs) :
    r.read p k = 0#24 := by
  fun_cases Regs.read p r k
  case case8 | case10 | case13 => rfl
  all_goals exact absurd ⟨by omega, by simp [*]⟩ hk

/-- Settles O7: each clause is one law of the register file. -/
theorem registerFileReadsWhatWasWritten : Obligations.RegisterFileReadsWhatWasWritten :=
  fun p r _ _ v =>
    ⟨fun hk => Regs.read_write_same hk r v,
      fun hjk => Regs.read_write_of_ne hjk p r v,
      fun hk => ⟨Regs.write_of_not_hasStorage hk r v, Regs.read_of_not_hasStorage hk r⟩⟩

end Sys2Proof.Machine
end

section
/-! The fetch as a function of the length rule (spec/30_encoding.md R86): which length an opcode and its
byte 1 give, and what the fetch answers for each length. `fetch_ok` reads the rule backwards, from an
answer; the lemmas here read it forwards and cover the two error halts. -/

namespace Sys2Proof.Machine

/-- A format-2 opcode decides the length alone. -/
theorem instrLength_of_format2 {map : OpcodeMap} {b0 : Byte}
    (h : ∃ o, map.opOf (opcodeOf b0) = some o ∧ o.isFormat2 = true) (b1 : Option Byte) :
    instrLength map b0 b1 = some 2 := by
  obtain ⟨o, ho, hf⟩ := h
  simp [instrLength, ho, hf]

/-- Any other opcode, known or not, leaves the length to byte 1. -/
theorem instrLength_of_not_format2 {map : OpcodeMap} {b0 : Byte}
    (h : ∀ o, map.opOf (opcodeOf b0) = some o → o.isFormat2 = false) (b1 : Option Byte) :
    instrLength map b0 b1 = b1.map (fun c => if extendedFlag c then 4 else 3) := by
  cases ho : map.opOf (opcodeOf b0) with
  | none => simp [instrLength, ho]
  | some o => simp [instrLength, ho, h o ho]

theorem fetch_of_pc_outside {s : State} (h : s.params.memSize ≤ s.regs.pc.toNat) :
    fetch s = .error .pcBounds :=
  if_neg (Nat.not_le.mpr (Nat.lt_succ_of_le h))

theorem fetch_of_lengthAt_none {s : State} (hpc : s.regs.pc.toNat < s.params.memSize)
    (hl : lengthAt s s.regs.pc.toNat = none) : fetch s = .error .fetchShort := by
  have hb : s.InBounds s.regs.pc.toNat 1 := hpc
  simp [fetch, hb, hl]

/-- With a length, the fetch takes that many bytes from the PC upward, or none. -/
theorem fetch_of_lengthAt_some {s : State} {len : Nat} (hpc : s.regs.pc.toNat < s.params.memSize)
    (hl : lengthAt s s.regs.pc.toNat = some len) :
    fetch s = if s.regs.pc.toNat + len ≤ s.params.memSize then .ok (s.mem.readList s.regs.pc.toNat len)
      else .error .fetchShort := by
  have hb : s.InBounds s.regs.pc.toNat 1 := hpc
  simp [fetch, hb, hl]

/-- Where byte 1 is needed and does not exist there is no length. -/
theorem lengthAt_of_byte1_outside {s : State} {a : Nat}
    (h : ∀ o, s.params.opcodeMap.opOf (opcodeOf (s.mem.read a)) = some o → o.isFormat2 = false)
    (h1 : s.params.memSize ≤ a + 1) : lengthAt s a = none := by
  have hb : ¬ s.InBounds (a + 1) 1 := Nat.not_le.mpr (Nat.lt_succ_of_le h1)
  rw [lengthAt, instrLength_of_not_format2 h, if_neg hb, Option.map_none]

/-- Where byte 1 is needed and exists, its bit 4 is the e flag and gives the length. -/
theorem lengthAt_of_byte1_inside {s : State} {a : Nat}
    (h : ∀ o, s.params.opcodeMap.opOf (opcodeOf (s.mem.read a)) = some o → o.isFormat2 = false)
    (h1 : a + 1 < s.params.memSize) {e : Bool} (he : (s.mem.read (a + 1)).getLsbD 4 = e) :
    lengthAt s a = some (if e then 4 else 3) := by
  have hb : s.InBounds (a + 1) 1 := h1
  rw [lengthAt, instrLength_of_not_format2 h, if_pos hb, Option.map_some, extendedFlag, he]

/-- Settles O4: the clauses are the cases of the length rule, and each names the fetch's answer for its
length. -/
theorem fetchFollowsTheLengthRule : Obligations.FetchFollowsTheLengthRule := by
  intro s a size op
  refine ⟨fetch_of_pc_outside, fun ha hf2 => ?format2, fun ha hnot2 =>
    ⟨fun h1 => ?noByte1, fun h1 he => ?format3, fun h1 he => ?format4⟩⟩
  case format2 => exact fetch_of_lengthAt_some ha (instrLength_of_format2 hf2 _)
  case noByte1 => exact fetch_of_lengthAt_none ha (lengthAt_of_byte1_outside hnot2 h1)
  case format3 => exact fetch_of_lengthAt_some ha (lengthAt_of_byte1_inside hnot2 h1 he)
  case format4 => exact fetch_of_lengthAt_some ha (lengthAt_of_byte1_inside hnot2 h1 he)

end Sys2Proof.Machine
end

section
/-! The target address as a sum of words (spec/40_addressing.md R112, R120, R121). The model adds exact integers
and masks once, last; the mode table as stated (R125) adds 24-bit words. The two agree because `trunc24` carries
integer sums to word sums. -/

namespace Sys2Proof.Machine

theorem trunc24_add (a b : Int) : trunc24 (a + b) = trunc24 a + trunc24 b := BitVec.ofInt_add a b

@[simp] theorem trunc24_natCast (n : Nat) : trunc24 n = BitVec.ofNat 24 n := BitVec.ofInt_natCast 24 n

theorem trunc24_baseTarget_of_pcRelative {m : MemOp} (hb : m.b = false) (hp : m.p = true) (s : State) :
    trunc24 (baseTarget m s) = s.regs.pc + BitVec.ofNat 24 m.len + trunc24 m.fieldValue := by
  simp [baseTarget, hb, hp, trunc24_add]

theorem trunc24_baseTarget_of_baseRelative {m : MemOp} (hb : m.b = true) (hp : m.p = false) (s : State) :
    trunc24 (baseTarget m s) = s.regs.b + trunc24 m.fieldValue := by
  simp [baseTarget, hb, hp, trunc24_add]

/-- With b and p both set the engine falls back to direct addressing, as with neither (R119). -/
theorem trunc24_baseTarget_of_direct {m : MemOp} (h : m.b = m.p) (s : State) :
    trunc24 (baseTarget m s) = trunc24 m.fieldValue := by
  simp [baseTarget, h]

/-- X is added before the mask (R120, R121); modulo 2^24 that is adding it to the masked base target. -/
theorem targetAddress_eq (m : MemOp) (s : State) :
    targetAddress m s =
      if m.x then trunc24 (baseTarget m s) + s.regs.x else trunc24 (baseTarget m s) := by
  cases hx : m.x <;> simp [targetAddress, hx, trunc24_add]

theorem immediateValue_of_field {s : State} (h : s.params.immRel = .field) (m : MemOp) :
    immediateValue m s = trunc24 m.fieldValue := by
  simp [immediateValue, h]

theorem immediateValue_of_textbook {s : State} (h : s.params.immRel = .textbook) (m : MemOp) :
    immediateValue m s = targetAddress m s := by
  simp [immediateValue, h]

/-- Simple and SIC addressing alike take the target address itself. -/
theorem resolve_of_n_eq_i {m : MemOp} (h : m.n = m.i) (s : State) :
    resolve m s = .ok (.mem (targetAddress m s)) := by
  simp [resolve, MemOp.isImmediate, MemOp.isIndirect, h]

/-- An indirect operand whose pointer exists takes the word there (R122). -/
theorem resolve_goodPointer {m : MemOp} {s : State} (hn : m.n = true) (hi : m.i = false)
    (hb : s.InBounds (targetAddress m s).toNat 3) :
    resolve m s = .ok (.mem (s.mem.readWord (targetAddress m s).toNat)) := by
  simp only [resolve, MemOp.isImmediate, MemOp.isIndirect, hn, hi]
  simp [hb]

/-- Settles O6: the table's target is the model's, by its three base modes and then the index; each clause is
then what the resolver answers for that n and i. -/
theorem resolverFollowsTheModeTable : Obligations.ResolverFollowsTheModeTable := by
  intro m s f base target
  have hbase : trunc24 (baseTarget m s) = base := by
    cases hb : m.b <;> cases hp : m.p <;> simp only [base, hb, hp]
    case false.true => exact trunc24_baseTarget_of_pcRelative hb hp s
    case true.false => exact trunc24_baseTarget_of_baseRelative hb hp s
    case false.false | true.true => exact trunc24_baseTarget_of_direct (hb.trans hp.symm) s
  have htarget : targetAddress m s = target := by
    rw [targetAddress_eq, hbase]
  rw [← htarget]
  refine ⟨fun hn hi => ⟨fun hf => ?field, fun ht => ?textbook⟩, fun h => resolve_of_n_eq_i h s,
    fun hn hi => ⟨fun hin => resolve_goodPointer hn hi hin, fun hout => ?badPointer⟩⟩
  case field => rw [resolve_immediate m s hn hi, immediateValue_of_field hf]; rfl
  case textbook => rw [resolve_immediate m s hn hi, immediateValue_of_textbook ht]
  case badPointer => exact resolve_badPointer m s hn hi (Nat.not_le.mpr hout)

end Sys2Proof.Machine
end

section
/-! The conditional jumps (spec/44_control.md R221 to R224). JEQ, JLT and JGT are one operation, `jumpIf`, at three
codes, so each clause is proved once, for every code. -/

namespace Sys2Proof.Machine

/-- An immediate operand is no jump target (R129). -/
theorem jumpAddress_of_immediate {m : MemOp} (hn : m.n = false) (hi : m.i = true) (s : State) :
    jumpAddress m s = .error .immediateNotAllowed := by
  rw [jumpAddress, resolve_immediate m s hn hi]
  rfl

/-- The immediate check precedes the test of SW: the code is free (R221). -/
theorem jumpIf_of_immediate {m : MemOp} (hn : m.n = false) (hi : m.i = true) (code : Word) (s : State) :
    jumpIf code m s = .error .immediateNotAllowed := by
  rw [jumpIf, jumpAddress_of_immediate hn hi]
  rfl

theorem jumpIf_taken {code : Word} {m : MemOp} {s : State} {t : Word} (h : resolve m s = .ok (.mem t))
    (hsw : s.regs.sw = code) : jumpIf code m s = .ok (s.setPc t) := by
  rw [jumpIf_of_resolve h, if_pos hsw]

theorem jumpIf_notTaken {code : Word} {m : MemOp} {s : State} {t : Word} (h : resolve m s = .ok (.mem t))
    (hsw : s.regs.sw ≠ code) :
    jumpIf code m s = .ok (s.setPc (s.regs.pc + BitVec.ofNat 24 m.len)) := by
  rw [jumpIf_of_resolve h, if_neg hsw, State.pcAfter_eq]

/-- Each conditional jump is `jumpIf` at the code it is listed with (R222 to R224). -/
theorem exec_conditionalJump {m : MemOp} {p : Instr × Word}
    (hp : p ∈ [(Instr.jeq m, 0x000000#24), (.jlt m, 0x000001#24), (.jgt m, 0x000002#24)]) (s : State) :
    exec p.1 s = answer (jumpIf p.2 m s) := by
  simp only [List.mem_cons, List.not_mem_nil, or_false] at hp
  obtain rfl | rfl | rfl := hp <;> rfl

/-- Settles O24: a listed jump answers what `jumpIf` at its code does, and each clause is one case of
`jumpIf`. -/
theorem conditionalJumpsTestTheWholeOfSw : Obligations.ConditionalJumpsTestTheWholeOfSw := by
  intro m s p hp
  rw [exec_conditionalJump hp]
  refine ⟨fun t ht hsw => ?taken, fun t ht hsw => ?notTaken, fun hn hi => ?immediate⟩
  case taken => rw [jumpIf_taken ht hsw]; rfl
  case notTaken => rw [jumpIf_notTaken ht hsw]; rfl
  case immediate => rw [jumpIf_of_immediate hn hi]; rfl

end Sys2Proof.Machine
end

section
/-! The device instructions once their id is read (spec/45_device_io.md R244, R245), and the answers of the device
oracle that do not depend on the host: the console's (R242) and a missing file's (R243). -/

namespace Sys2Proof.Machine

theorem isConsole_eq_false {id : Byte} (h : 3 ≤ id.toNat) : isConsole id = false :=
  decide_eq_false (Nat.not_le.mpr h)

/-- The console answers before the host's lined-up answers are consulted (R242). -/
theorem Devices.testAnswer_of_console {id : Byte} (h : id.toNat ≤ 2) (d : Devices) :
    d.testAnswer id = true := by
  have hc : isConsole id = true := decide_eq_true h
  rw [Devices.testAnswer, hc, Bool.true_or]

/-- A missing file never tests ready, whatever answer is lined up (R243). -/
theorem Devices.testAnswer_of_missing {d : Devices} {id : Byte} (h : 3 ≤ id.toNat)
    (hf : d.fileExists id = false) : d.testAnswer id = false := by
  rw [Devices.testAnswer, isConsole_eq_false h, hf, Bool.false_and, Bool.or_false]

/-- A missing file is at its end, whatever byte is lined up (R243). -/
theorem Devices.readAnswer_of_missing {d : Devices} {id : Byte} (h : 3 ≤ id.toNat)
    (hf : d.fileExists id = false) : d.readAnswer id = none := by
  have hr : d.reachable id = false := by rw [Devices.reachable, isConsole_eq_false h, hf, Bool.or_false]
  simp [Devices.readAnswer, hr]

/-- TD with a readable id always answers; SW takes the code of the oracle's answer (R244). -/
theorem exec_td_of_operand {m : MemOp} {s : State} {id : Byte} (h : ByteOperand m s id) :
    exec (.td m) s = .next
      (((s.setDev (s.dev.afterTest id)).setSw (ccReady (s.dev.testAnswer id))).setPc (s.pcAfter m.len)) := by
  rw [exec, execTd, sourceByte_of_operand h]
  rfl

/-- RD with a readable id always answers; A's low byte takes the byte read, or 0 where there is none (R245). -/
theorem exec_rd_of_operand {m : MemOp} {s : State} {id : Byte} (h : ByteOperand m s id) :
    exec (.rd m) s = .next
      (((s.setDev (s.dev.afterRead id)).writeReg RegNo.A
        (withLowByte s.regs.a ((s.dev.readAnswer id).getD 0x00#8))).setPc (s.pcAfter m.len)) := by
  rw [exec, execRd, sourceByte_of_operand h]
  rfl

/-- Settles O29: the operand is read, so TD and RD answer, and in each clause the oracle's answer is fixed. -/
theorem consoleIsReadyAndMissingFileIsNot : Obligations.ConsoleIsReadyAndMissingFileIsNot := by
  intro m s id hid
  refine ⟨fun hconsole => ⟨_, exec_td_of_operand hid, ?consoleReady⟩, fun hfile hmissing =>
    ⟨⟨_, exec_td_of_operand hid, ?notReady⟩, ⟨_, exec_rd_of_operand hid, ?readsZero⟩⟩⟩
  case consoleReady => rw [Devices.testAnswer_of_console hconsole]; rfl
  case notReady => rw [Devices.testAnswer_of_missing hfile hmissing]; rfl
  case readsZero => rw [Devices.readAnswer_of_missing hfile hmissing]; rfl

end Sys2Proof.Machine
end

section
/-! Relocations that cannot be applied (spec/50_loader.md R277). Such an entry is `Loader.note` and nothing more. -/

namespace Sys2Proof.Machine

theorem Loader.applyEntry_of_unresolved {l : Loader} {e : ModEntry} (h : lookupSymbol l.estab e.sym = none)
    (size k : Nat) : l.applyEntry size k e = l.note (.entry k .unresolved) := by
  rw [Loader.applyEntry, h]

/-- The field needs all three of its bytes: one byte past the end is enough to skip the entry (R277). -/
theorem Loader.applyEntry_of_outOfBounds {l : Loader} {e : ModEntry} {a : Word} {size : Nat}
    (hsym : lookupSymbol l.estab e.sym = some a) (hout : size < (e.cs + e.rel).toNat + 3) (k : Nat) :
    l.applyEntry size k e = l.note (.entry k .bounds) := by
  rw [Loader.applyEntry, hsym]
  exact if_neg (Nat.not_le.mpr hout)

/-- An entry that only adds to the report leaves the entries after it their own numbers and the loader it found,
but for that report (R277). -/
theorem Loader.applyAll_cons_of_note {size k : Nat} {l : Loader} {e : ModEntry} {r : LoadReport}
    (h : l.applyEntry size k e = l.note r) (rest : List ModEntry) :
    Loader.applyAll size k l (e :: rest) = Loader.applyAll size (k + 1) (l.note r) rest := by
  rw [Loader.applyAll, h]

/-- Settles O57: in either clause the first entry is a `Loader.note`. -/
theorem badRelocationIsReportedAndSkipped : Obligations.BadRelocationIsReportedAndSkipped := by
  intro size k l e rest
  refine ⟨fun hnone => ?unresolved, fun a hsome hout => ?outOfBounds⟩
  case unresolved => exact Loader.applyAll_cons_of_note (Loader.applyEntry_of_unresolved hnone size k) rest
  case outOfBounds =>
    exact Loader.applyAll_cons_of_note (Loader.applyEntry_of_outOfBounds hsome hout k) rest

end Sys2Proof.Machine
end

section
/-! Initialization (spec/60_exceptions.md R313). -/

namespace Sys2Proof.Machine

/-- Settles O53: the statement is the equation of `State.init`, which sets those fields with no test of the entry
(R313, D29), so it holds by definition. -/
theorem initStartsAtTheEntry : Obligations.InitStartsAtTheEntry := by
  intro s
  rfl

end Sys2Proof.Machine
end

section
/-! What the encoder writes and what the decoder takes back (spec/30_encoding.md sections 1 to 5). An instruction is
an operation with an operand or a register pair; `encodeWith_of_memOp` and `decodeWith_of_memOp` are the two directions
for an operand, `encodeWith_of_format2` and `decodeWith_of_format2` for a register pair. -/

namespace Sys2Proof

theorem encodeWith_of_memOp {map : OpcodeMap} {i : Instr} {code : OpCode} {m : MemOp}
    (hc : map.codeOf i.op = some code) (hm : i.memOp? = some m) :
    encodeWith map i = some (encodeMem code m) := by
  simp [encodeWith, hc, hm]

theorem encodeWith_of_format2 {map : OpcodeMap} {i : Instr} {code : OpCode}
    (hc : map.codeOf i.op = some code) (hm : i.memOp? = none) :
    encodeWith map i = some (encodeReg code i.regPair.1 i.regPair.2) := by
  simp [encodeWith, hc, hm]

theorem decodeWith_of_memOp {map : OpcodeMap} {b0 : Byte} {o : Op} (ho : map.opOf (opcodeOf b0) = some o)
    (hf : o.isFormat2 = false) {tail rest : List Byte} {m : MemOp}
    (hm : decodeMemOp b0 tail = some (m, rest)) :
    decodeWith map (b0 :: tail) = .ok (o.instr m 0#4 0#4, rest) := by
  simp [decodeWith, ho, hf, hm]

theorem decodeWith_of_format2 {map : OpcodeMap} {b0 : Byte} {o : Op}
    (ho : map.opOf (opcodeOf b0) = some o) (hf : o.isFormat2 = true) (b1 : Byte) (rest : List Byte) :
    decodeWith map (b0 :: b1 :: rest) =
      .ok (o.instr MemOp.unused (reg1Of b1) (reg2Of b1), rest) := by
  simp [decodeWith, ho, hf]

/-- Everything a stream that decodes can be: an opcode of the map, then an operand or a register byte. -/
theorem decodeWith_ok {map : OpcodeMap} {bytes rest : List Byte} {i : Instr}
    (h : decodeWith map bytes = .ok (i, rest)) :
    ∃ b0 tail o, bytes = b0 :: tail ∧ map.opOf (opcodeOf b0) = some o ∧
      ((o.isFormat2 = false ∧ ∃ m, decodeMemOp b0 tail = some (m, rest) ∧ i = o.instr m 0#4 0#4) ∨
        (o.isFormat2 = true ∧ ∃ b1, tail = b1 :: rest ∧
          i = o.instr MemOp.unused (reg1Of b1) (reg2Of b1))) := by
  cases bytes with
  | nil => simp [decodeWith] at h
  | cons b0 tail =>
    cases ho : map.opOf (opcodeOf b0) with
    | none => cases hm : decodeMemOp b0 tail <;> simp [decodeWith, ho, hm] at h
    | some o =>
      refine ⟨b0, tail, o, rfl, ho, ?_⟩
      cases hf : o.isFormat2 with
      | false =>
        cases hm : decodeMemOp b0 tail with
        | none => simp [decodeWith, ho, hf, hm] at h
        | some p =>
          obtain ⟨m, r⟩ := p
          rw [decodeWith_of_memOp ho hf hm] at h
          cases h
          exact .inl ⟨rfl, m, rfl, rfl⟩
      | true =>
        cases tail with
        | nil => simp [decodeWith, ho, hf] at h
        | cons b1 r =>
          rw [decodeWith_of_format2 ho hf] at h
          cases h
          exact .inr ⟨rfl, b1, rfl, rfl⟩

/-- Settles O1: a well-formed map takes the operation to its opcode and back, so only the fields are left: the
operand is read back by `decodeMemOp_encodeMem`, the register pair by its two nibbles. -/
theorem decodeOfEncodeIsTheInstruction : Obligations.DecodeOfEncodeIsTheInstruction := by
  intro map i rest hmap hi
  obtain ⟨code, hc, ho⟩ := OpcodeMap.opOf_codeOf hmap i.op
  obtain ⟨hmem, hreg⟩ := Instr.eq_op_instr i
  cases hm : i.memOp? with
  | some m =>
    obtain ⟨hf, hinstr⟩ := hmem m hm
    have hwf : m.wellFormed = true := by simpa [Instr.wellFormed, hm] using hi
    obtain ⟨b0, tail, henc, rfl, hlen, hdec⟩ := decodeMemOp_encodeMem code m rest hwf
    refine ⟨_, encodeWith_of_memOp hc hm, by simp [Instr.len, hm], ?_⟩
    rw [henc, List.cons_append, decodeWith_of_memOp ho hf hdec, hinstr]
  | none =>
    obtain ⟨hf, hinstr⟩ := hreg hm
    refine ⟨_, encodeWith_of_format2 hc hm, by simp [Instr.len, hm], ?_⟩
    rw [← opcodeOf_byte0Of code false false] at ho
    rw [encodeReg, List.cons_append, List.cons_append, List.nil_append, decodeWith_of_format2 ho hf,
      reg1Of_append, reg2Of_append, hinstr]

/-- Where no operation repeats, an entry's opcode is the operation's. -/
theorem OpcodeMap.codeOf_eq_of_mem {map : OpcodeMap} {c : OpCode} {o : Op}
    (hd : (map.map Prod.snd).Nodup) (h : (c, o) ∈ map) : map.codeOf o = some c := by
  induction map with
  | nil => simp at h
  | cons d map ih =>
    obtain ⟨c', o'⟩ := d
    simp only [List.map_cons, List.nodup_cons] at hd
    simp only [OpcodeMap.codeOf]
    rcases List.mem_cons.1 h with h | h
    · simp_all
    · rw [if_neg, ih hd.2 h]
      rintro rfl
      exact hd.1 (List.mem_map_of_mem h)

/-- The default map lists no operation twice, so it can be read in both directions. -/
theorem standardOpcodeMap_codeOf {c : OpCode} {o : Op} (h : standardOpcodeMap.opOf c = some o) :
    standardOpcodeMap.codeOf o = some c :=
  OpcodeMap.codeOf_eq_of_mem (by decide) (OpcodeMap.mem_of_opOf h)

/-- The register pair of a built format-2 instruction; CLEAR and TIXR have no second register (R82, R92). -/
theorem Op.instr_regPair {o : Op} (hf : o.isFormat2 = true) (m : MemOp) (r1 r2 : RegNo) :
    (o.instr m r1 r2).regPair = (r1, if o = .clear ∨ o = .tixr then 0#4 else r2) := by
  revert hf
  cases o <;> simp [Op.isFormat2, Op.instr, Instr.regPair]

/-- Settles O2: a stream that decodes has an opcode of the map, and the default map gives the operation that opcode
back; an operand is its bytes by `encodeMem_of_decodeMemOp`. -/
theorem decodedBytesAreTheEncoding : Obligations.DecodedBytesAreTheEncoding := by
  intro bytes rest i h
  obtain ⟨b0, tail, o, rfl, ho, ⟨hf, m, hm, rfl⟩ | ⟨hf, b1, rfl, rfl⟩⟩ := decodeWith_ok h
  · obtain ⟨hop, hmem⟩ := Op.instr_parts o m 0#4 0#4
    rw [hf, if_neg Bool.false_ne_true] at hmem
    obtain ⟨hwf, hbytes⟩ := encodeMem_of_decodeMemOp hm
    have hc := standardOpcodeMap_codeOf ho
    rw [← hop] at hc
    refine ⟨by simpa [Instr.wellFormed, hmem] using hwf, fun _ => ?_, fun hnone => ?_⟩
    · rw [encode, encodeWith_of_memOp hc hmem, Option.getD_some, hbytes]
    · rw [hmem] at hnone
      cases hnone
  · obtain ⟨hop, hmem⟩ := Op.instr_parts o MemOp.unused (reg1Of b1) (reg2Of b1)
    rw [hf, if_pos rfl] at hmem
    refine ⟨by simp [Instr.wellFormed, hmem], fun hsome => absurd hmem hsome, fun _ =>
      ⟨b0, b1, rfl, by rw [hop, standardOpcodeMap_codeOf ho], ?_, fun hclear htixr => ?_⟩⟩
    · rw [Op.instr_regPair hf]
    · rw [hop] at hclear htixr
      rw [Op.instr_regPair hf, if_neg (by simp [hclear, htixr])]

/-- Settles O3: seven closed decodings. -/
theorem specWordsDecodeToTheirInstructions : Obligations.SpecWordsDecodeToTheirInstructions := by
  unfold Obligations.SpecWordsDecodeToTheirInstructions
  decide

/-- Settles O42: the map is closed and there are 64 opcodes. -/
theorem unknownOpcodesAreTheTwentySeven : Obligations.UnknownOpcodesAreTheTwentySeven := by
  unfold Obligations.UnknownOpcodesAreTheTwentySeven
  decide

end Sys2Proof
end

section
/-! The field of an operand as a number (spec/30_encoding.md R90, spec/40_addressing.md R113). -/

namespace Sys2Proof

/-- The bound of two's complement, from bit 11 down. -/
theorem disp12_toInt (f : BitVec 20) :
    (f.extractLsb' 0 12).toInt = (f.toNat % 4096 : Nat) - (if f.getLsbD 11 then 4096 else 0) := by
  have hmsb : (f.extractLsb' 0 12).msb = f.getLsbD 11 := by
    simp [BitVec.msb_eq_getLsbD_last]
  rw [BitVec.toInt_eq_msb_cond, hmsb, BitVec.extractLsb'_toNat, Nat.shiftRight_zero]
  cases f.getLsbD 11 <;> simp

theorem MemOp.fieldValue_of_extended {m : MemOp} (he : m.e = true) : m.fieldValue = m.field.toNat := by
  simp [MemOp.fieldValue, he]

theorem MemOp.fieldValue_of_signed {m : MemOp} (he : m.e = false) (hs : m.signedField = true) :
    m.fieldValue = (m.field.extractLsb' 0 12).toInt := by
  simp [MemOp.fieldValue, he, hs]

theorem MemOp.fieldValue_of_unsigned {m : MemOp} (he : m.e = false) (hs : m.signedField = false) :
    m.fieldValue = (m.field.toNat % 4096 : Nat) := by
  simp [MemOp.fieldValue, he, hs]

/-- Settles O5: `signedField` says which of the three readings of the field is taken, and each reading has its
range. -/
theorem fieldIsSignExtendedExactlyWhenRelativeOrSic :
    Obligations.FieldIsSignExtendedExactlyWhenRelativeOrSic := by
  intro m
  refine ⟨fun he => ?extended, fun he hrel => ?signed, fun he hb hp hni => ?unsigned⟩
  case extended =>
    rw [MemOp.fieldValue_of_extended he]
    exact ⟨rfl, by exact_mod_cast m.field.isLt⟩
  case signed =>
    have hs : m.signedField = true := by
      simpa [MemOp.signedField, or_assoc] using hrel
    rw [MemOp.fieldValue_of_signed he hs]
    exact ⟨disp12_toInt m.field, BitVec.le_toInt _, Int.le_of_lt_add_one BitVec.toInt_lt⟩
  case unsigned =>
    have hs : m.signedField = false := by
      rcases hni with h | h <;> simp [MemOp.signedField, hb, hp, h]
    rw [MemOp.fieldValue_of_unsigned he hs]
    refine ⟨rfl, ?_⟩
    omega

end Sys2Proof
end

section
/-! Memory as a function of addresses (spec/10_state.md section 5, spec/20_memory.md section 2). -/

namespace Sys2Proof.Machine

/-- Settles O8, by the two laws of `Memory.write`. -/
theorem byteReadAfterWrite : Obligations.ByteReadAfterWrite :=
  fun m a b v hm => ⟨Memory.wf_write m a v hm, Memory.read_write m a b v hm⟩

/-- The lowest listed address is listed by any canonical memory that reads the same: a memory that starts above it
reads as unlisted there. -/
theorem Memory.not_lt_of_read_eq {k k' : Nat} {v v' : Byte} {m m' : Memory} (hm : Memory.wf ((k, v) :: m))
    (hm' : Memory.wf ((k', v') :: m'))
    (h : ∀ a, Memory.read ((k, v) :: m) a = Memory.read ((k', v') :: m') a) : ¬ k < k' := by
  intro hlt
  obtain ⟨hv, -, -⟩ := (Memory.wf_cons k v m).1 hm
  obtain ⟨-, hk', -⟩ := (Memory.wf_cons k' v' m').1 hm'
  have hbelow : ∀ c ∈ (k', v') :: m', k < c.1 := by
    intro c hc
    rcases List.mem_cons.1 hc with rfl | hc
    · exact hlt
    · exact hlt.trans (hk' c hc)
  have hread := h k
  rw [Memory.read_below _ k hbelow, Memory.read_cons, if_pos rfl] at hread
  exact hv hread

/-- Memories with the same lowest entry that read the same have rests that read the same. -/
theorem Memory.read_eq_of_read_cons_eq {k : Nat} {v : Byte} {m m' : Memory} (hm : ∀ c ∈ m, k < c.1)
    (hm' : ∀ c ∈ m', k < c.1) (h : ∀ a, Memory.read ((k, v) :: m) a = Memory.read ((k, v) :: m') a)
    (a : Nat) : m.read a = m'.read a := by
  by_cases ha : a = k
  · rw [ha, Memory.read_below m k hm, Memory.read_below m' k hm']
  · simpa [Memory.read_cons, ha] using h a

/-- Settles O9, by induction on the two lists: their lowest entries are the same, and so are the rests. -/
theorem canonicalMemoriesAreEqualWhenTheyReadEqual :
    Obligations.CanonicalMemoriesAreEqualWhenTheyReadEqual := by
  intro m
  induction m with
  | nil =>
    intro n _ hn h
    cases n with
    | nil => rfl
    | cons d n =>
      obtain ⟨hv, -, -⟩ := (Memory.wf_cons d.1 d.2 n).1 hn
      have hread := h d.1
      rw [Memory.read_nil, Memory.read_cons, if_pos rfl] at hread
      exact absurd hread.symm hv
  | cons c m ih =>
    obtain ⟨k, v⟩ := c
    intro n hm hn h
    obtain ⟨hv, hk, hm'⟩ := (Memory.wf_cons k v m).1 hm
    cases n with
    | nil =>
      have hread := h k
      rw [Memory.read_nil, Memory.read_cons, if_pos rfl] at hread
      exact absurd hread hv
    | cons d n =>
      obtain ⟨k', v'⟩ := d
      obtain ⟨-, hk', hn'⟩ := (Memory.wf_cons k' v' n).1 hn
      obtain rfl : k = k' := Nat.le_antisymm
        (Nat.not_lt.1 (Memory.not_lt_of_read_eq hn hm fun a => (h a).symm))
        (Nat.not_lt.1 (Memory.not_lt_of_read_eq hm hn h))
      obtain rfl : v = v' := by simpa [Memory.read_cons] using h k
      rw [ih n hm' hn' (Memory.read_eq_of_read_cons_eq hk hk' h)]

/-- A stored word changes three bytes and no other. -/
theorem Memory.read_writeWord_outside {m : Memory} (hm : m.wf) (a : Nat) (v : Word) {b : Nat}
    (h : b < a ∨ a + 3 ≤ b) : (m.writeWord a v).read b = m.read b :=
  Memory.read_writeList_outside m a b (wordBytes v) hm h

/-- Settles O10: the three bytes, the frame, and the word and top byte read back as signed values. -/
theorem wordStoreIsBigEndianAndReadsBackSigned : Obligations.WordStoreIsBigEndianAndReadsBackSigned := by
  intro m a v hm m'
  obtain ⟨h0, h1, h2⟩ := Memory.read_writeWord m a v hm
  refine ⟨h0, h1, h2, fun b hb => Memory.read_writeWord_outside hm a v hb, ?word, ?byte⟩
  case word =>
    rw [Memory.readSigned3, Memory.readWord_writeWord m a v hm, BitVec.toInt_eq_toNat_cond]
    exact if_congr (by omega) rfl (by norm_num)
  case byte => rw [Memory.readSigned1, h0]

end Sys2Proof.Machine
end

section
/-! What an instruction that answers has done to the state, said once (spec/10_state.md R24 to R28,
spec/20_memory.md R58): it is built from writes of the registers of `writtenRegs`, of the PC, of memory, and of the
device side where the instruction operates on one. The frames of registers and of the rest of the state are
inductions on that; the frame of memory is `exec_mem`. -/

namespace Sys2Proof.Machine

/-- The states an instruction may turn `s` into. -/
inductive Wrote (i : Instr) (s : State) : State → Prop where
  | start : Wrote i s s
  | reg {t : State} {k : RegNo} {v : Word} : Wrote i s t → k ∈ writtenRegs i → Wrote i s (t.writeReg k v)
  | pc {t : State} {v : Word} : Wrote i s t → Wrote i s (t.setPc v)
  | mem {t : State} {m : Memory} : Wrote i s t → Wrote i s (t.setMem m)
  | dev {t : State} {d : Devices} : Wrote i s t → touchesDevice i = true → Wrote i s (t.setDev d)

/-- EVERYTHING AN INSTRUCTION THAT ANSWERS DOES. -/
theorem exec_wrote {i : Instr} {s t : State} (h : exec i s = .next t) : Wrote i s t := by
  cases i with
  | lda m | ldx m | ldl m | ldb m | lds m | ldt m =>
    obtain ⟨v, -, rfl⟩ := loadWord_ok (answer_next h)
    exact .pc (.reg .start (by simp [writtenRegs]))
  | add m | sub m | mul m | div m =>
    obtain ⟨-, w, -, -, rfl⟩ := accumulate_ok (answer_next h)
    exact .pc (.reg .start (by simp [writtenRegs]))
  | addr r1 r2 | subr r1 r2 | mulr r1 r2 | rmo r1 r2 | compr r1 r2 | clear r1 =>
    cases h
    exact .pc (.reg .start (by simp [writtenRegs]))
  | divr r1 r2 =>
    obtain ⟨w, -, rfl⟩ := registerOp_ok (answer_next h)
    exact .pc (.reg .start (by simp [writtenRegs]))
  | ldch m | comp m | jsub m =>
    obtain ⟨v, -, rfl⟩ := map_ok (answer_next h)
    exact .pc (.reg .start (by simp [writtenRegs]))
  | tix m =>
    obtain ⟨v, -, rfl⟩ := map_ok (answer_next h)
    exact .pc (.reg (.reg .start (by simp [writtenRegs])) (by simp [writtenRegs]))
  | tixr r1 =>
    cases h
    exact .pc (.reg (.reg .start (by simp [writtenRegs])) (by simp [writtenRegs]))
  | sta m | stx m | stl m | stb m | sts m | stt m =>
    obtain ⟨a, -, rfl⟩ := storeWord_ok (answer_next h)
    exact .pc (.mem .start)
  | stch m =>
    obtain ⟨a, -, rfl⟩ := map_ok (answer_next h)
    exact .pc (.mem .start)
  | j m =>
    obtain ⟨a, -, rfl⟩ := map_ok (answer_next h)
    exact .pc .start
  | jeq m | jlt m | jgt m =>
    obtain ⟨a, -, rfl⟩ := jumpIf_ok (answer_next h)
    exact .pc .start
  | rsub m =>
    obtain rfl := execRsub_next h
    exact .pc .start
  | td m | rd m =>
    obtain ⟨id, -, rfl⟩ := map_ok (answer_next h)
    exact .pc (.reg (.dev .start rfl) (by simp [writtenRegs]))
  | wd m =>
    obtain ⟨id, -, rfl⟩ := map_ok (answer_next h)
    exact .pc (.dev .start rfl)

theorem State.readReg_writeReg_of_ne {j k : RegNo} (h : k ≠ j) (s : State) (v : Word) :
    (s.writeReg j v).readReg k = s.readReg k :=
  Regs.read_write_of_ne h s.params.reg67 s.regs v

theorem State.readReg_setPc_of_ne {k : RegNo} (h : k ≠ RegNo.PC) (s : State) (v : Word) :
    (s.setPc v).readReg k = s.readReg k :=
  State.readReg_writeReg_of_ne h s v

/-- A register that is neither the PC nor one of those the instruction writes reads as before. -/
theorem Wrote.readReg {i : Instr} {s t : State} (h : Wrote i s t) {k : RegNo} (hk : k ∉ writtenRegs i)
    (hpc : k ≠ RegNo.PC) : t.readReg k = s.readReg k := by
  induction h with
  | start => rfl
  | reg _ hj ih =>
    have hne := ne_of_mem_of_not_mem hj hk
    exact (State.readReg_writeReg_of_ne hne.symm _ _).trans ih
  | pc _ ih => exact (State.readReg_setPc_of_ne hpc _ _).trans ih
  | mem _ ih => exact ih
  | dev _ _ ih => exact ih

/-- Only registers, memory and the device side can differ, the last only where the instruction operates on it. -/
theorem Wrote.rest {i : Instr} {s t : State} (h : Wrote i s t) :
    t.f = s.f ∧ t.prog = s.prog ∧ t.ready = s.ready ∧ t.retFlag = s.retFlag ∧ t.steps = s.steps ∧
      t.log = s.log ∧ t.params = s.params ∧ (touchesDevice i = false → t.dev = s.dev) := by
  induction h with
  | start => simp
  | reg _ _ ih => exact ih
  | pc _ ih => exact ih
  | mem _ ih => exact ih
  | dev _ htouch ih =>
    obtain ⟨hf, hprog, hready, hret, hsteps, hlog, hparams, -⟩ := ih
    exact ⟨hf, hprog, hready, hret, hsteps, hlog, hparams, by simp [htouch]⟩

/-- Settles O36: of what an instruction does, only the writes it lists and the PC's reach a register. -/
theorem registersChangeOnlyWhereWritten : Obligations.RegistersChangeOnlyWhereWritten :=
  fun _ _ _ _ h hk hpc => (exec_wrote h).readReg hk hpc

/-- Settles O37: what is stored is one run of bytes, where `storeRange` says. -/
theorem memoryChangesOnlyWhereStored : Obligations.MemoryChangesOnlyWhereStored := by
  intro i s t b hm h hb
  rcases exec_mem i s t h with ⟨-, hmem⟩ | ⟨a, vs, hrange, hmem, -⟩
  · rw [hmem]
  · rw [hmem, Memory.read_writeList_outside s.mem a b vs hm (hb a vs.length hrange)]

/-- Settles O38: none of the updates an instruction is built from reaches the rest of the state. -/
theorem instructionsLeaveTheRestAlone : Obligations.InstructionsLeaveTheRestAlone :=
  fun _ _ _ h => (exec_wrote h).rest

end Sys2Proof.Machine
end

section
/-! F is out of reach (spec/10_state.md R25): no operand depends on it, and no update of the state sets it. -/

namespace Sys2Proof.Machine

/-- The state with `v` in F. -/
def State.withF (s : State) (v : BitVec 64) : State := { s with f := v }

theorem State.withF_params (s : State) (v : BitVec 64) : (s.withF v).params = s.params := rfl

theorem resolve_withF (m : MemOp) (s : State) (v : BitVec 64) : resolve m (s.withF v) = resolve m s := rfl

/-- The outcome with `v` in the F of its next state. -/
def outcomeWithF (v : BitVec 64) : Host.Outcome State Fault Refusal → Host.Outcome State Fault Refusal
  | .next t => .next (t.withF v)
  | .fault w => .fault w
  | .refused r => .refused r

/-- The same operand, and next states that differ in F only. -/
theorem answer_map_withF {α : Type} (r : Except ErrorKind α) {f f' : α → State} {v : BitVec 64}
    (hf : ∀ x, f' x = (f x).withF v) : answer (r.map f') = outcomeWithF v (answer (r.map f)) := by
  cases r with
  | error k => rfl
  | ok x => exact congrArg _ (hf x)

/-- An accumulator operation is one possible error, then one next state. -/
theorem accumulate_eq_map (f : Word → Word → Except ErrorKind Word) (m : MemOp) (s : State) :
    accumulate f m s =
      (sourceWord m s >>= f s.regs.a).map fun w => (s.writeReg RegNo.A w).setPc (s.pcAfter m.len) := by
  unfold accumulate
  cases sourceWord m s with
  | error k => rfl
  | ok v => cases hw : f s.regs.a v <;> simp [hw, bind, Except.bind, pure, Except.pure, Except.map]

theorem accumulate_withF (f : Word → Word → Except ErrorKind Word) (m : MemOp) (s : State)
    (v : BitVec 64) :
    answer (accumulate f m (s.withF v)) = outcomeWithF v (answer (accumulate f m s)) := by
  rw [accumulate_eq_map, accumulate_eq_map]
  exact answer_map_withF (sourceWord m s >>= f s.regs.a) fun _ => rfl

/-- Every instruction ends the same way with another value in F, and leaves that value there. -/
theorem exec_withF (i : Instr) (s : State) (v : BitVec 64) :
    exec i (s.withF v) = outcomeWithF v (exec i s) := by
  cases i with
  | lda m | ldx m | ldl m | ldb m | lds m | ldt m | comp m | tix m =>
    exact answer_map_withF (sourceWord m s) fun _ => rfl
  | sta m | stx m | stl m | stb m | sts m | stt m =>
    exact answer_map_withF (storeAddress m 3 s) fun _ => rfl
  | stch m => exact answer_map_withF (storeAddress m 1 s) fun _ => rfl
  | ldch m | td m | rd m | wd m => exact answer_map_withF (sourceByte m s) fun _ => rfl
  | add m | sub m | mul m | div m => exact accumulate_withF _ m s v
  | j m | jeq m | jlt m | jgt m | jsub m => exact answer_map_withF (jumpAddress m s) fun _ => rfl
  | rsub m =>
    simp only [exec, execRsub, resolve_withF, State.withF_params]
    cases resolve m s with
    | error k => rfl
    | ok d => cases s.params.rsub <;> rfl
  | addr r1 r2 | subr r1 r2 | mulr r1 r2 | rmo r1 r2 | compr r1 r2 | clear r1 | tixr r1 => rfl
  | divr r1 r2 => exact answer_map_withF (divWords (s.readReg r2) (s.readReg r1)) fun _ => rfl

/-- Settles O39: `exec_withF` read at a next state and at a fault. -/
theorem noInstructionReadsF : Obligations.NoInstructionReadsF :=
  fun i s v => ⟨fun _ h => (exec_withF i s v).trans (congrArg (outcomeWithF v) h),
    fun _ h => (exec_withF i s v).trans (congrArg (outcomeWithF v) h)⟩

end Sys2Proof.Machine
end

section
/-! The step from the outside (spec/60_exceptions.md R310, R311): the controller's checks in their order, then the
engine. `step_cases` reads the step backwards, from an answer; the lemmas here read it forwards. -/

namespace Sys2Proof.Machine

theorem step_of_not_ready {s : State} (h : s.ready = false) : step s = .fault (.stopped .notReady s) := by
  simp [step, controllerStep, h]

theorem step_of_out_of_range {s : State} (hr : s.ready = true) (hp : ¬ s.inProgramRange s.regs.pc) :
    step s = .fault (.stopped (boundsOutcome s) (s.halt (.boundsHalt (boundsOutcome s) s.regs.pc))) := by
  rw [step, controllerStep, if_pos hr, if_neg hp]

theorem step_of_runnable {s : State} (h : s.runnable) : step s = engineStep s := by
  obtain ⟨hr, hp⟩ := h
  rw [step, controllerStep, if_pos hr, if_pos hp]

theorem step_of_fetch_error {s : State} (h : s.runnable) {k : ErrorKind} (hf : fetch s = .error k) :
    step s = engineStop s (.errorHalt k) [] none := by
  rw [step_of_runnable h, engineStep, hf]

theorem step_of_instruction {s : State} (h : s.runnable) {bytes rest : List Byte} {i : Instr}
    (hf : fetch s = .ok bytes) (hd : decodeWith s.params.opcodeMap bytes = .ok (i, rest)) :
    step s = settle s i bytes (exec i s) := by
  simp only [step_of_runnable h, engineStep, hf, runFetched, hd]

theorem step_of_unknown_opcode {s : State} (h : s.runnable) {bytes : List Byte} {op : OpCode} {m : MemOp}
    (hf : fetch s = .ok bytes)
    (hd : decodeWith s.params.opcodeMap bytes = .error (.unknownOpcode op m)) :
    step s = unknownWord s m bytes := by
  simp only [step_of_runnable h, engineStep, hf, runFetched, hd]

theorem State.halt_same (s : State) (e : LogEntry) : SameButReadyAndLog s (s.halt e) :=
  ⟨rfl, rfl, rfl, rfl, rfl, rfl, rfl, rfl⟩

/-- Settles O40: `settle` is that commit and those halts; the log that is added to is the one the instruction
started with. -/
theorem stepRunsTheDecodedInstruction : Obligations.StepRunsTheDecodedInstruction := by
  intro s bytes rest i hrun hf hd ea stop
  rw [step_of_instruction hrun hf hd]
  refine ⟨fun t ht => ?_, fun k hk => ?_, fun hn => ?_⟩
  · obtain ⟨-, -, -, -, -, hlog, -⟩ := (exec_wrote ht).rest
    rw [ht, ← hlog]
    rfl
  · rw [hk]
    rfl
  · rw [hn]
    rfl

/-- Settles O41: the log entry, and so the state left, depends on what the operand resolves to. -/
theorem unknownOpcodeHaltsAfterResolving : Obligations.UnknownOpcodeHaltsAfterResolving := by
  intro s bytes op m hrun hf hd
  rw [step_of_unknown_opcode hrun hf hd, unknownWord]
  cases hres : resolve m s with
  | error k =>
    obtain rfl := resolve_error hres
    exact ⟨_, State.halt_same s (.engineHalt (.errorHalt .indirectBounds) ⟨s.regs.pc, bytes, none⟩), rfl,
      fun _ => rfl, nofun⟩
  | ok d =>
    exact ⟨_, State.halt_same s (.engineHalt (.errorHalt .unknownOpcode) ⟨s.regs.pc, bytes, d.ea⟩), rfl,
      nofun, fun _ _ => rfl⟩

/-- Settles O43: one clause per check, and the policy decides what a PC out of range is reported as. -/
theorem controllerChecksComeFirst : Obligations.ControllerChecksComeFirst := by
  intro s
  refine ⟨step_of_not_ready, fun hr hp => ⟨_, _, step_of_out_of_range hr hp, ?rsubNormal, ?alwaysNormal,
    ?alwaysError⟩, fun hrun k hf => ⟨_, step_of_fetch_error hrun hf⟩⟩
  all_goals
    intro hpolicy
    simp only [boundsOutcome, hpolicy]

/-- Settles O44: the three cases of a step; an instruction leaves `ready` alone and a halt clears it. -/
theorem stepContinuesOrStops : Obligations.StepContinuesOrStops := by
  intro s
  rcases step_cases s with ⟨hready, h⟩ | ⟨bytes, i, u, ⟨hready, -⟩, -, -, hexec, h⟩ | ⟨o, e, hcause, h⟩
  · exact .inr ⟨_, _, h, hready, by simp⟩
  · obtain ⟨-, -, hu, -⟩ := (exec_wrote hexec).rest
    exact .inl ⟨_, h, hu.trans hready⟩
  · exact .inr ⟨_, _, h, rfl, hcause.ready.2.1⟩

/-- Settles O45: a stop without a halt is that of a controller that was not ready. -/
theorem stopsArePrecise : Obligations.StopsArePrecise := by
  intro s t o h
  rcases step_stopped h with ⟨hready, -, rfl⟩ | ⟨e, hcause, rfl⟩
  · exact ⟨⟨rfl, rfl, rfl, rfl, rfl, rfl, rfl, rfl⟩, fun _ => rfl, by simp [hready]⟩
  · exact ⟨State.halt_same s e, by simp [hcause.ready.1], fun _ => ⟨e, rfl⟩⟩

/-- Settles O46: the log and `ret_flag` are the commit's, on top of the log the instruction left alone. -/
theorem continuingStepCommitsOneInstruction : Obligations.ContinuingStepCommitsOneInstruction := by
  intro s t h
  obtain ⟨bytes, i, u, hrun, hf, hd, hexec, rfl⟩ := step_next h
  obtain ⟨-, -, -, -, -, hlog, -⟩ := (exec_wrote hexec).rest
  exact ⟨hrun, bytes, i, u, hf, hd, hexec, rfl, rfl, rfl, by simp, by simp [hlog]⟩

end Sys2Proof.Machine
end

section
/-! What every step keeps, continuing or stopping (spec/10_state.md sections 2 and 5 to 7, spec/45_device_io.md R240):
by `leaves_step` it is what instructions keep. -/

namespace Sys2Proof.Machine

/-- A step leaves what one instruction made, committed, or everything but `ready` and the log. -/
theorem leaves_step {s t : State} (h : Leaves (step s) t) :
    (∃ i u, exec i s = .next u ∧ ∃ ea, t = u.commit s.regs.pc i ea) ∨ SameButReadyAndLog s t := by
  obtain h | ⟨o, h⟩ := h
  · obtain ⟨-, i, u, -, -, -, hexec, rfl⟩ := step_next h
    exact .inl ⟨i, u, hexec, _, rfl⟩
  · obtain ⟨hsame, -⟩ := stopsArePrecise s t o h
    exact .inr hsame

/-- An instruction stores only bytes that exist, and by a write that keeps the canonical form. -/
theorem exec_keeps_inv {i : Instr} {s t : State} (h : exec i s = .next t) (hs : s.Inv) : t.Inv := by
  obtain ⟨-, -, -, -, -, -, hparams, -⟩ := (exec_wrote h).rest
  show t.mem.fits t.params.memSize
  rw [hparams]
  rcases exec_mem i s t h with ⟨-, hmem⟩ | ⟨a, vs, -, hmem, hin⟩
  · exact hmem ▸ hs
  · exact hmem ▸ Memory.fits_writeList hs hin

/-- Settles O47: a step leaves what an instruction left of memory, or the memory it found. -/
theorem stepKeepsMemoryCanonicalAndWithinBounds : Obligations.StepKeepsMemoryCanonicalAndWithinBounds := by
  intro s t hs hleaves
  rcases leaves_step hleaves with ⟨i, u, hexec, ea, rfl⟩ | ⟨-, -, hmem, -, -, -, -, hparams⟩
  · exact exec_keeps_inv (t := u) hexec hs
  · show t.mem.fits t.params.memSize
    rw [hmem, hparams]
    exact hs

/-- Settles O48: memory lists nothing after reset. -/
theorem resetMemoryIsCanonicalAndWithinBounds : Obligations.ResetMemoryIsCanonicalAndWithinBounds :=
  ⟨Memory.wf_nil, List.forall_mem_nil _⟩

/-- Settles O49: instructions, the commit and the halt all leave these fields alone. -/
theorem stepKeepsFMetadataAndParameters : Obligations.StepKeepsFMetadataAndParameters := by
  intro s t hleaves
  rcases leaves_step hleaves with ⟨i, u, hexec, ea, rfl⟩ | ⟨-, hf, -, hprog, -, hsteps, -, hparams⟩
  · obtain ⟨hf, hprog, -, -, hsteps, -, hparams, -⟩ := (exec_wrote hexec).rest
    exact ⟨hf, hprog, hsteps, hparams⟩
  · exact ⟨hf, hprog, hsteps, hparams⟩

/-- A write adds its byte to the history, or fails and adds none (R246). -/
theorem Devices.afterWrite_output (d : Devices) (id b : Byte) :
    (d.afterWrite id b).output = if d.writeOk id b then d.output ++ [(id, b)] else d.output := rfl

/-- Only WD adds to the output history. -/
theorem exec_output {i : Instr} {s t : State} (h : exec i s = .next t) :
    t.dev.output = s.dev.output ∨ ∃ id b, t.dev.output = s.dev.output ++ [(id, b)] := by
  cases i with
  | td m | rd m =>
    obtain ⟨id, -, rfl⟩ := map_ok (answer_next h)
    exact .inl rfl
  | wd m =>
    obtain ⟨id, -, rfl⟩ := map_ok (answer_next h)
    cases hok : s.dev.writeOk id (lowByte s.regs.a) with
    | false => exact .inl (by simp [Devices.afterWrite_output, hok])
    | true => exact .inr ⟨id, lowByte s.regs.a, by simp [Devices.afterWrite_output, hok]⟩
  | _ =>
    obtain ⟨-, -, -, -, -, -, -, hdev⟩ := (exec_wrote h).rest
    exact .inl (congrArg _ (hdev rfl))

/-- Settles O50: only an instruction reaches the devices, and `exec_output` says what it adds. -/
theorem outputHistoryOnlyGrows : Obligations.OutputHistoryOnlyGrows := by
  intro s t hleaves
  rcases leaves_step hleaves with ⟨i, u, hexec, ea, rfl⟩ | ⟨-, -, -, -, -, -, hdev, -⟩
  · exact exec_output (t := u) hexec
  · exact .inl (congrArg _ hdev)

end Sys2Proof.Machine
end

section
/-! How runs end (spec/44_control.md R226, spec/60_exceptions.md R303, R312), and the reset (R330). -/

namespace Sys2Proof.Machine

/-- Leaving the program range after an RSUB is the normal end (R303). -/
theorem step_of_out_of_range_after_rsub {s : State} (hr : s.ready = true)
    (hp : ¬ s.inProgramRange s.regs.pc) (hb : s.params.boundsHalt = .rsubNormal)
    (hret : s.retFlag = true) :
    step s = .fault (.stopped .normalHalt (s.halt (.boundsHalt .normalHalt s.regs.pc))) := by
  have ho : boundsOutcome s = .normalHalt := by simp [boundsOutcome, hb, hret]
  rw [step_of_out_of_range hr hp, ho]

/-- Settles O51: RSUB leaves L in the PC and `ret_flag` set, so the next step's range check fails and is classified
as normal. -/
theorem rsubOutOfRangeEndsTheRunNormally : Obligations.RsubOutOfRangeEndsTheRunNormally := by
  intro s t bytes rest m hpolicy hbounds hf hd hstep hout
  obtain ⟨bytes', i, u, ⟨hready, -⟩, hf', hd', hexec, rfl⟩ := step_next hstep
  obtain rfl : bytes = bytes' := by simpa [hf] using hf'
  obtain ⟨rfl, -⟩ : Instr.rsub m = i ∧ rest = [] := by simpa [hd] using hd'
  obtain rfl := execRsub_next hexec
  exact ⟨_, step_of_out_of_range_after_rsub hready hout hbounds rfl, rfl, rfl, rfl⟩

/-- The loop stops after at most as many calls as it may still make. -/
theorem runLoop_stops (n : Nat) (s : State) :
    ∃ o t, runLoop n s = .fault (.stopped o t) ∧ t.steps ≤ s.steps + n ∧
      (o = .ceiling → t.steps = s.steps + n ∧ (s.ready = true → t.ready = true)) ∧
      (o ≠ .ceiling → t.ready = false) := by
  induction n generalizing s with
  | zero => exact ⟨_, _, rfl, le_rfl, fun _ => ⟨rfl, id⟩, fun h => absurd rfl h⟩
  | succ n ih =>
    rcases stepContinuesOrStops s with ⟨u, hstep, hready⟩ | ⟨o, u, hstep, hready, hne⟩
    · obtain ⟨-, -, hsteps, -⟩ := stepKeepsFMetadataAndParameters s u (.inl hstep)
      obtain ⟨o, t, hrun, hle, hceiling, hother⟩ := ih u.countStep
      have hcount : u.countStep.steps + n = s.steps + (n + 1) := by
        rw [State.countStep_steps, hsteps]
        omega
      rw [hcount] at hle hceiling
      refine ⟨o, t, ?_, hle, fun ho => ⟨(hceiling ho).1, fun _ => (hceiling ho).2 hready⟩, hother⟩
      rw [runLoop, ← step, hstep]
      exact hrun
    · obtain ⟨-, -, hsteps, -⟩ := stepKeepsFMetadataAndParameters s u (.inr ⟨o, hstep⟩)
      refine ⟨o, u.countStep, ?_, ?_, fun ho => absurd ho hne, fun _ => hready⟩
      · rw [runLoop, ← step, hstep]
      · rw [State.countStep_steps, hsteps]
        omega

/-- Settles O52: `run` is the loop from 0 calls, with the ceiling as its bound. -/
theorem runStopsWithinTheCeiling : Obligations.RunStopsWithinTheCeiling := by
  intro s
  simpa [State.run] using runLoop_stops s.params.runCeiling { s with steps := 0 }

/-- Settles O54: each clause is a field of `State.resetWith`. -/
theorem resetLeavesTheValuesOfTheTable : Obligations.ResetLeavesTheValuesOfTheTable :=
  ⟨fun _ => ⟨rfl, rfl, fun _ => rfl, rfl, rfl, rfl, rfl, rfl, rfl, rfl, rfl, rfl, rfl, rfl⟩, rfl⟩

end Sys2Proof.Machine
end

section
/-! Loads and stores with an operand that is readable, or an address whose bytes exist (spec/41_load_store.md). -/

namespace Sys2Proof.Machine

/-- Settles O11: each load is `loadWord` at its register. -/
theorem wordLoadsTakeTheOperand : Obligations.WordLoadsTakeTheOperand := by
  intro m s v h pc
  have load (k : RegNo) : answer (loadWord k m s) = .next ((s.writeReg k v).setPc pc) := by
    rw [loadWord_of_operand h, State.pcAfter_eq, answer_ok]
  exact ⟨load RegNo.A, load RegNo.X, load RegNo.L, load RegNo.B, load RegNo.S, load RegNo.T⟩

/-- Each word store is `storeWord` at the register whose value it is listed with (R147 to R152). -/
theorem exec_wordStore {m : MemOp} {s : State} {p : Instr × Word}
    (hp : p ∈ [(Instr.sta m, s.regs.a), (.stx m, s.regs.x), (.stl m, s.regs.l), (.stb m, s.regs.b),
      (.sts m, s.regs.s), (.stt m, s.regs.t)]) :
    ∃ k, exec p.1 s = answer (storeWord k m s) ∧ p.2 = s.readReg k := by
  simp only [List.mem_cons, List.not_mem_nil, or_false] at hp
  obtain rfl | rfl | rfl | rfl | rfl | rfl := hp
  exacts [⟨RegNo.A, rfl, rfl⟩, ⟨RegNo.X, rfl, rfl⟩, ⟨RegNo.L, rfl, rfl⟩, ⟨RegNo.B, rfl, rfl⟩,
    ⟨RegNo.S, rfl, rfl⟩, ⟨RegNo.T, rfl, rfl⟩]

/-- Settles O12: a listed store writes its register's word, whose bytes and frame are those of `writeWord`. -/
theorem wordStoresWriteThreeBytes : Obligations.WordStoresWriteThreeBytes := by
  intro m s ea hm hres hb a p hp
  obtain ⟨k, hexec, hval⟩ := exec_wordStore hp
  obtain ⟨h0, h1, h2⟩ := Memory.read_writeWord s.mem a p.2 hm
  refine ⟨s.mem.writeWord a p.2, ?_, Memory.wf_writeWord s.mem a p.2 hm, h0, h1, h2,
    fun b hb => Memory.read_writeWord_outside hm a p.2 hb⟩
  rw [hexec, storeWord_of_resolve hres hb, ← hval, State.pcAfter_eq]
  rfl

/-- Settles O13: A takes `withLowByte`, whose two parts are known. -/
theorem ldchReplacesTheLowByteOfA : Obligations.LdchReplacesTheLowByteOfA := by
  intro m s c h
  refine ⟨withLowByte s.regs.a c, withLowByte_high _ c, withLowByte_low _ c, ?_⟩
  rw [exec, execLdch, sourceByte_of_operand h, State.pcAfter_eq]
  rfl

/-- Settles O14: the stored byte reads back at its address and nowhere else. -/
theorem stchWritesOneByte : Obligations.StchWritesOneByte := by
  intro m s ea hm hres hb
  have hread := fun b => Memory.read_write s.mem ea.toNat b (lowByte s.regs.a) hm
  refine ⟨s.mem.write ea.toNat (lowByte s.regs.a), ?_, Memory.wf_write _ _ _ hm, ?_, fun b hne => ?_⟩
  · rw [exec, execStch, storeAddress_of_resolve hres hb, State.pcAfter_eq]
    rfl
  · rw [hread, if_pos rfl, lowByte]
  · rw [hread, if_neg hne]

end Sys2Proof.Machine
end

section
/-! Arithmetic and register operations that complete (spec/42_arithmetic.md). -/

namespace Sys2Proof.Machine

/-- Settles O15: the three accumulate a total operation, which on words is that of `BitVec`. -/
theorem addSubMulWrapModulo : Obligations.AddSubMulWrapModulo := by
  intro m s v h pc
  have accumulates (f : Word → Word → Word) :
      answer (accumulate (fun a v => .ok (f a v)) m s) =
        .next { s with regs := { s.regs with a := f s.regs.a v, pc := pc } } := by
    rw [accumulate_of_operand h rfl, State.pcAfter_eq]
    rfl
  rw [← addWords_eq, ← subWords_eq, ← mulWords_eq]
  exact ⟨accumulates addWords, accumulates subWords, accumulates mulWords⟩

/-- The exact quotient, reduced modulo 2^24, is the library's signed division of words (R170). -/
theorem trunc24_tdiv (a v : Word) : trunc24 (Int.tdiv (sint24 a) (sint24 v)) = a.sdiv v := by
  apply BitVec.eq_of_toInt_eq
  rw [trunc24, BitVec.toInt_ofInt, BitVec.toInt_sdiv, sint24, sint24]

/-- The quotient is exact but for the one pair whose quotient is 2^23. -/
theorem sdiv_truncates (a v : Word) :
    (a = 0x800000#24 ∧ v = 0xFFFFFF#24 → a.sdiv v = 0x800000#24) ∧
    (¬ (a = 0x800000#24 ∧ v = 0xFFFFFF#24) → (a.sdiv v).toInt = Int.tdiv a.toInt v.toInt) := by
  refine ⟨fun ⟨ha, hv⟩ => ?wraps, fun hne => BitVec.toInt_sdiv_of_ne_or_ne a v ?exact⟩
  case wraps =>
    subst ha hv
    decide
  case exact => exact not_and_or.1 hne

/-- Settles O16: the quotient is the signed division of words. -/
theorem divTruncatesTowardZero : Obligations.DivTruncatesTowardZero := by
  intro m s v h hv
  refine ⟨s.regs.a.sdiv v, ?_, sdiv_truncates s.regs.a v⟩
  rw [exec, execDiv, accumulate_of_operand h (divWords_ok _ v hv), trunc24_tdiv, State.pcAfter_eq]
  rfl

/-- A register operation on values that are allowed, with the next-PC commit last (R175). -/
theorem registerOp_of_ok {f : Word → Word → Except ErrorKind Word} {r1 r2 : RegNo} {s : State} {w : Word}
    (hw : f (s.readReg r2) (s.readReg r1) = .ok w) :
    answer (registerOp f r1 r2 s) =
      .next { s with regs := { s.regs.write s.params.reg67 r2 w with pc := s.regs.pc + 2#24 } } := by
  rw [registerOp, hw, State.pcAfter_eq]
  rfl

/-- Settles O17: the three are one register operation, at the three operations of O15. -/
theorem addrSubrMulrWriteTheSecondRegister : Obligations.AddrSubrMulrWriteTheSecondRegister := by
  intro r1 r2 s p u v pc
  have operates (f : Word → Word → Word) :
      answer (registerOp (fun a v => .ok (f a v)) r1 r2 s) =
        .next { s with regs := { s.regs.write p r2 (f u v) with pc := pc } } :=
    registerOp_of_ok rfl
  rw [← addWords_eq, ← subWords_eq, ← mulWords_eq]
  exact ⟨operates addWords, operates subWords, operates mulWords⟩

/-- Settles O18: the quotient is that of O16, written by the register file. -/
theorem divrTruncatesTowardZero : Obligations.DivrTruncatesTowardZero := by
  intro r1 r2 s p u v hv
  refine ⟨u.sdiv v, ?_, sdiv_truncates u v⟩
  rw [← trunc24_tdiv]
  exact registerOp_of_ok (divWords_ok u v hv)

/-- Settles O19: RMO is the register operation that keeps its source, CLEAR a write of 0. -/
theorem rmoCopiesAndClearZeroes : Obligations.RmoCopiesAndClearZeroes := by
  intro r1 r2 s p pc
  refine ⟨registerOp_of_ok (f := fun _ v => .ok v) rfl, ?_⟩
  rw [exec, execClear, State.pcAfter_eq]
  rfl

end Sys2Proof.Machine
end

section
/-! Compares, jumps and the subroutine return (spec/43_compare.md, spec/44_control.md). -/

namespace Sys2Proof.Machine

/-- Settles O20: `cc_eq` is the code by the signed order on words. -/
theorem compareSetsTheSignedCode : Obligations.CompareSetsTheSignedCode := by
  intro s code
  refine ⟨fun m v h => ?comp, fun r1 r2 => ?compr⟩
  case comp =>
    rw [exec, execComp, sourceWord_of_operand h, State.pcAfter_eq]
    simp only [Except.map, cc_eq]
    rfl
  case compr =>
    rw [exec, execCompr, cc_eq, State.pcAfter_eq]
    rfl

/-- Settles O21: the operand is that of the state before X is incremented. -/
theorem tixIncrementsThenCompares : Obligations.TixIncrementsThenCompares := by
  intro m s v h x
  rw [exec, execTix, sourceWord_of_operand h, State.pcAfter_eq]
  simp only [Except.map, cc_eq, incremented_eq]
  rfl

/-- TIXR's code: the incremented X against x[r1], which for r1 = 1 is the incremented X itself (R205). -/
theorem tixr_code (r1 : RegNo) (x w : Word) :
    cc (sint24 x) (sint24 (if r1 = RegNo.X then x else w)) =
      if r1 = 1#4 then 0x000000#24
      else if x.slt w then 0x000001#24 else if x = w then 0x000000#24 else 0x000002#24 := by
  rw [cc_eq, RegNo.X]
  by_cases h : r1 = 1#4 <;> simp [h, BitVec.slt]

/-- Settles O22: `tixr_code` is the one place where r1 = 1 differs. -/
theorem tixrIncrementsThenCompares : Obligations.TixrIncrementsThenCompares := by
  intro r1 s x w
  simp only [exec, execTixr, tixr_code, incremented_eq, State.pcAfter_eq]
  rfl

/-- Settles O23: the jump target is the resolved address, with no bounds check. -/
theorem jumpAndCallGoToTheAddress : Obligations.JumpAndCallGoToTheAddress := by
  intro m s t h
  rw [exec, exec, execJ, execJsub, jumpAddress_of_resolve h, State.pcAfter_eq]
  exact ⟨rfl, rfl⟩

/-- Settles O25: what the operand resolves to is ignored. -/
theorem rsubJumpsToLOrHalts : Obligations.RsubJumpsToLOrHalts := by
  intro m s d h
  simp only [exec, execRsub, h]
  exact ⟨fun hp => by rw [hp]; rfl, fun hp => by rw [hp]⟩

end Sys2Proof.Machine
end

section
/-! The device instructions with a readable id (spec/45_device_io.md R244 to R246). -/

namespace Sys2Proof.Machine

/-- Settles O26: of the device side only `afterTest`'s tests and draws can differ. -/
theorem tdSetsReadiness : Obligations.TdSetsReadiness := by
  intro m s id h
  refine ⟨s.dev.afterTest id, rfl, rfl, rfl, rfl, ?_⟩
  rw [exec_td_of_operand h, State.pcAfter_eq]
  rfl

/-- Settles O27: A takes `withLowByte` of the byte read, or of 0. -/
theorem rdReplacesTheLowByteOfA : Obligations.RdReplacesTheLowByteOfA := by
  intro m s id h
  refine ⟨s.dev.afterRead id, withLowByte s.regs.a ((s.dev.readAnswer id).getD 0x00#8), rfl, rfl, rfl, rfl,
    withLowByte_high _ _, fun b hb => ?_, fun hnone => ?_, ?_⟩
  · rw [withLowByte_low, hb, Option.getD_some]
  · rw [withLowByte_low, hnone, Option.getD_none]
  · rw [exec_rd_of_operand h, State.pcAfter_eq]
    rfl

/-- WD with a readable id always answers, and leaves every register but the PC (R246). -/
theorem exec_wd_of_operand {m : MemOp} {s : State} {id : Byte} (h : ByteOperand m s id) :
    exec (.wd m) s = .next
      ((s.setDev (s.dev.afterWrite id (lowByte s.regs.a))).setPc (s.pcAfter m.len)) := by
  rw [exec, execWd, sourceByte_of_operand h]
  rfl

/-- A noted file is known to exist. -/
theorem knownFile_noteFile (known : List (Byte × Bool)) (id : Byte) :
    knownFile (noteFile known id) id = some true := by
  unfold noteFile
  split
  · assumption
  · simp [knownFile]

/-- A write that succeeds creates the file it names (R243). -/
theorem Devices.fileExists_afterWrite {d : Devices} {id b : Byte} (hok : d.writeOk id b = true)
    (hid : 3 ≤ id.toNat) : (d.afterWrite id b).fileExists id = true := by
  have hknown : (d.afterWrite id b).known = noteFile d.known id := by
    simp [Devices.afterWrite, hok, isConsole_eq_false hid]
  rw [Devices.fileExists, hknown, knownFile_noteFile]

/-- Settles O28: the device side is `afterWrite`'s, in its two outcomes. -/
theorem wdOutputsTheLowByteOfA : Obligations.WdOutputsTheLowByteOfA := by
  intro m s id h b
  refine ⟨s.dev.afterWrite id b, rfl, rfl, fun hok => ⟨?output, Devices.fileExists_afterWrite hok⟩,
    fun hfail => ?fails, ?answers⟩
  case output => rw [Devices.afterWrite_output, if_pos hok]
  case fails => simp [Devices.afterWrite, hfail]
  case answers =>
    rw [exec_wd_of_operand h, State.pcAfter_eq]
    rfl

end Sys2Proof.Machine
end

section
/-! Where instructions complete and where they halt (spec/60_exceptions.md R301). A format-3/4 instruction's halts
come from its operand, and `exec_operandUse` says, once for each of the 29, how it uses it. -/

namespace Sys2Proof.Machine

/-- How the format-3/4 instruction `i` uses its operand `m`: as a word, a byte, a store address or a jump target, from
which its next state follows; DIV may still reject the word, and RSUB ignores the operand. -/
inductive OperandUse (i : Instr) (m : MemOp) (s : State) : Prop where
  | word (f : Word → State) : needsAddress i = false → dataWidth i = 3 →
      exec i s = answer ((sourceWord m s).map f) → OperandUse i m s
  | div (f : Word → State) : i = .div m →
      exec i s = answer ((sourceWord m s >>= divWords s.regs.a).map f) → OperandUse i m s
  | byte (f : Byte → State) : needsAddress i = false → dataWidth i = 1 →
      exec i s = answer ((sourceByte m s).map f) → OperandUse i m s
  | store (f : Nat → State) : needsAddress i = true → 0 < dataWidth i →
      exec i s = answer ((storeAddress m (dataWidth i) s).map f) → OperandUse i m s
  | jump (f : Word → State) : needsAddress i = true → dataWidth i = 0 →
      exec i s = answer ((jumpAddress m s).map f) → OperandUse i m s
  | rsub : i = .rsub m → OperandUse i m s

/-- ADD, SUB and MUL reject no word. -/
theorem accumulate_total (f : Word → Word → Word) (m : MemOp) (s : State) :
    accumulate (fun a v => .ok (f a v)) m s =
      (sourceWord m s).map fun v => (s.writeReg RegNo.A (f s.regs.a v)).setPc (s.pcAfter m.len) := by
  unfold accumulate
  cases sourceWord m s <;> rfl

theorem exec_operandUse {i : Instr} {m : MemOp} (h : i.memOp? = some m) (s : State) : OperandUse i m s := by
  cases i with
  | lda m' | ldx m' | ldl m' | ldb m' | lds m' | ldt m' | comp m' | tix m' =>
    cases h
    exact .word _ rfl rfl rfl
  | add m' | sub m' | mul m' =>
    cases h
    exact .word _ rfl rfl (congrArg answer (accumulate_total _ m s))
  | div m' =>
    cases h
    exact .div _ rfl (congrArg answer (accumulate_eq_map divWords m s))
  | ldch m' | td m' | rd m' | wd m' =>
    cases h
    exact .byte _ rfl rfl rfl
  | sta m' | stx m' | stl m' | stb m' | sts m' | stt m' | stch m' =>
    cases h
    exact .store _ rfl (by simp [dataWidth]) rfl
  | j m' | jeq m' | jlt m' | jgt m' | jsub m' =>
    cases h
    exact .jump _ rfl rfl rfl
  | rsub m' =>
    cases h
    exact .rsub rfl
  | addr r1 r2 | subr r1 r2 | mulr r1 r2 | divr r1 r2 | compr r1 r2 | rmo r1 r2 | clear r1 | tixr r1 =>
    cases h

/-- Every use of the operand resolves it first (R110). -/
theorem exec_of_resolve_error {i : Instr} {m : MemOp} {s : State} {k : ErrorKind}
    (hm : i.memOp? = some m) (hres : resolve m s = .error k) : exec i s = .fault (.errorHalt k) := by
  cases exec_operandUse hm s with
  | word f _ _ h => rw [h, sourceWord, hres]; rfl
  | div f _ h => rw [h, sourceWord, hres]; rfl
  | byte f _ _ h => rw [h, sourceByte, hres]; rfl
  | store f _ _ h => rw [h, storeAddress, hres]; rfl
  | jump f _ _ h => rw [h, jumpAddress, hres]; rfl
  | rsub h => rw [h, exec, execRsub, hres]

/-- Of the uses of an operand, two need an address (R128, R129). -/
theorem exec_of_immediate {i : Instr} {m : MemOp} {s : State} {v : Word} (hm : i.memOp? = some m)
    (hneeds : needsAddress i = true) (hres : resolve m s = .ok (.imm v)) :
    exec i s = .fault (.errorHalt .immediateNotAllowed) := by
  cases exec_operandUse hm s with
  | word f hno _ _ | byte f hno _ _ => simp [hno] at hneeds
  | div f h _ | rsub h => simp [h, needsAddress] at hneeds
  | store f _ _ h => rw [h, storeAddress, hres]; rfl
  | jump f _ _ h => rw [h, jumpAddress, hres]; rfl

/-- Settles O30: a bad pointer is a failed resolution. -/
theorem badPointerHaltsEveryFormat34Instruction : Obligations.BadPointerHaltsEveryFormat34Instruction :=
  fun _ m s hm hn hi hb => exec_of_resolve_error hm (resolve_badPointer m s hn hi hb)

/-- Settles O31: n = 0 with i = 1 resolves to an immediate operand. -/
theorem immediateIsRejectedWhereAnAddressIsNeeded :
    Obligations.ImmediateIsRejectedWhereAnAddressIsNeeded :=
  fun _ m s hm hneeds hn hi => exec_of_immediate hm hneeds (resolve_immediate m s hn hi)

theorem sourceWord_of_outside {m : MemOp} {s : State} {ea : Word} (hres : resolve m s = .ok (.mem ea))
    (hb : ¬ s.InBounds ea.toNat 3) : sourceWord m s = .error .memBounds := by
  rw [sourceWord, hres]
  exact if_neg hb

theorem sourceByte_of_outside {m : MemOp} {s : State} {ea : Word} (hres : resolve m s = .ok (.mem ea))
    (hb : ¬ s.InBounds ea.toNat 1) : sourceByte m s = .error .memBounds := by
  rw [sourceByte, hres]
  exact if_neg hb

theorem storeAddress_of_outside {m : MemOp} {n : Nat} {s : State} {ea : Word}
    (hres : resolve m s = .ok (.mem ea)) (hb : ¬ s.InBounds ea.toNat n) :
    storeAddress m n s = .error .memBounds := by
  rw [storeAddress, hres]
  exact if_neg hb

/-- Settles O32: of the uses of an operand, a jump and RSUB access no data. -/
theorem operandOutsideMemoryHalts : Obligations.OperandOutsideMemoryHalts := by
  intro i m s ea hm hres hpos hout
  have hb : ¬ s.InBounds ea.toNat (dataWidth i) := Nat.not_le.2 hout
  cases exec_operandUse hm s with
  | word f _ hw h => rw [h, sourceWord_of_outside hres (hw ▸ hb)]; rfl
  | div f hi h => subst hi; rw [h, sourceWord_of_outside hres hb]; rfl
  | byte f _ hw h => rw [h, sourceByte_of_outside hres (hw ▸ hb)]; rfl
  | store f _ _ h => rw [h, storeAddress_of_outside hres hb]; rfl
  | jump f _ hw h => simp [hw] at hpos
  | rsub h => simp [h, dataWidth] at hpos

/-- Settles O33: `divWords` rejects 0, and both instructions pass its error on. -/
theorem zeroDivisorHalts : Obligations.ZeroDivisorHalts := by
  intro s
  refine ⟨fun m h => ?_, fun r1 r2 h => ?_⟩
  · rw [exec, execDiv, accumulate_eq_map, sourceWord_of_operand h]
    exact congrArg _ (congrArg _ (divWords_zero s.regs.a))
  · rw [exec, execDivr, registerOp, State.readReg, State.readReg, h, divWords_zero]
    rfl

/-- The operand `m` resolves to something that the instruction `i` can use. -/
def Usable (i : Instr) (m : MemOp) (s : State) : Prop :=
  (∃ v, resolve m s = .ok (.imm v) ∧ needsAddress i = false) ∨
    ∃ ea, resolve m s = .ok (.mem ea) ∧ (dataWidth i = 0 ∨ s.InBounds ea.toNat (dataWidth i))

theorem Usable.resolves {i : Instr} {m : MemOp} {s : State} (h : Usable i m s) :
    ∃ d, resolve m s = .ok d := by
  obtain ⟨v, hres, -⟩ | ⟨ea, hres, -⟩ := h
  exacts [⟨_, hres⟩, ⟨_, hres⟩]

theorem Usable.wordOperand {i : Instr} {m : MemOp} {s : State} (h : Usable i m s)
    (hw : dataWidth i = 3) : ∃ v, WordOperand m s v := by
  obtain ⟨v, hres, -⟩ | ⟨ea, hres, hin⟩ := h
  · exact ⟨v, .inl hres⟩
  · rw [hw] at hin
    exact ⟨_, .inr ⟨ea, hres, hin.resolve_left (by decide), rfl⟩⟩

theorem Usable.byteOperand {i : Instr} {m : MemOp} {s : State} (h : Usable i m s)
    (hw : dataWidth i = 1) : ∃ c, ByteOperand m s c := by
  obtain ⟨v, hres, -⟩ | ⟨ea, hres, hin⟩ := h
  · exact ⟨_, .inl ⟨v, hres, rfl⟩⟩
  · rw [hw] at hin
    exact ⟨_, .inr ⟨ea, hres, hin.resolve_left (by decide), rfl⟩⟩

theorem Usable.address {i : Instr} {m : MemOp} {s : State} (h : Usable i m s)
    (hneeds : needsAddress i = true) :
    ∃ ea, resolve m s = .ok (.mem ea) ∧ (dataWidth i = 0 ∨ s.InBounds ea.toNat (dataWidth i)) := by
  obtain ⟨-, -, hno⟩ | h := h
  · simp [hno] at hneeds
  · exact h

/-- Why the instruction `i` halts in `s`, and how (R301, R303). -/
inductive HaltCause (i : Instr) (s : State) : Fault → Prop where
  | pointer (m : MemOp) : i.memOp? = some m → resolve m s = .error .indirectBounds →
      HaltCause i s (.errorHalt .indirectBounds)
  | immediate (m : MemOp) (v : Word) : i.memOp? = some m → resolve m s = .ok (.imm v) →
      needsAddress i = true → HaltCause i s (.errorHalt .immediateNotAllowed)
  | outside (m : MemOp) (ea : Word) : i.memOp? = some m → resolve m s = .ok (.mem ea) →
      0 < dataWidth i → s.params.memSize < ea.toNat + dataWidth i → HaltCause i s (.errorHalt .memBounds)
  | div (m : MemOp) : i = .div m → WordOperand m s 0#24 → HaltCause i s (.errorHalt .divZero)
  | divr (r1 r2 : RegNo) : i = .divr r1 r2 → s.regs.read s.params.reg67 r1 = 0#24 →
      HaltCause i s (.errorHalt .divZero)
  | rsub (m : MemOp) : i = .rsub m → s.params.rsub = .halt → HaltCause i s .normalHalt

/-- A usable operand leaves DIV's zero divisor and RSUB's policy as the only causes. -/
theorem exec_of_usable {i : Instr} {m : MemOp} {s : State} (hm : i.memOp? = some m) (h : Usable i m s) :
    (∃ t, exec i s = .next t) ∨ ∃ w, HaltCause i s w ∧ exec i s = .fault w := by
  cases exec_operandUse hm s with
  | word f _ hw hexec =>
    obtain ⟨v, hv⟩ := h.wordOperand hw
    exact .inl ⟨f v, by rw [hexec, sourceWord_of_operand hv]; rfl⟩
  | div f hi hexec =>
    subst hi
    obtain ⟨v, hv⟩ := h.wordOperand rfl
    by_cases h0 : v = 0#24
    · subst h0
      exact .inr ⟨_, .div m rfl hv, (zeroDivisorHalts s).1 m hv⟩
    · obtain ⟨q, hq, -⟩ := divTruncatesTowardZero m s v hv h0
      exact .inl ⟨_, hq⟩
  | byte f _ hw hexec =>
    obtain ⟨c, hc⟩ := h.byteOperand hw
    exact .inl ⟨f c, by rw [hexec, sourceByte_of_operand hc]; rfl⟩
  | store f hneeds hpos hexec =>
    obtain ⟨ea, hres, hin⟩ := h.address hneeds
    have hb := hin.resolve_left hpos.ne'
    exact .inl ⟨f ea.toNat, by rw [hexec, storeAddress_of_resolve hres hb]; rfl⟩
  | jump f hneeds _ hexec =>
    obtain ⟨ea, hres, -⟩ := h.address hneeds
    exact .inl ⟨f ea, by rw [hexec, jumpAddress_of_resolve hres]; rfl⟩
  | rsub hi =>
    subst hi
    obtain ⟨d, hres⟩ := h.resolves
    obtain ⟨hjump, hhalt⟩ := rsubJumpsToLOrHalts m s d hres
    cases hp : s.params.rsub with
    | jumpL => exact .inl ⟨_, hjump hp⟩
    | halt => exact .inr ⟨_, .rsub m rfl hp, hhalt hp⟩

/-- Of the register forms only DIVR can halt. -/
theorem exec_of_format2 {i : Instr} (hm : i.memOp? = none) (s : State) :
    (∃ t, exec i s = .next t) ∨ ∃ w, HaltCause i s w ∧ exec i s = .fault w := by
  cases i with
  | addr r1 r2 | subr r1 r2 | mulr r1 r2 | compr r1 r2 | rmo r1 r2 | clear r1 | tixr r1 =>
    exact .inl ⟨_, rfl⟩
  | divr r1 r2 =>
    by_cases h0 : s.regs.read s.params.reg67 r1 = 0#24
    · exact .inr ⟨_, .divr r1 r2 rfl h0, (zeroDivisorHalts s).2 r1 r2 h0⟩
    · obtain ⟨q, hq, -⟩ := divrTruncatesTowardZero r1 r2 s h0
      exact .inl ⟨_, hq⟩
  | _ => cases hm

/-- EVERYTHING AN INSTRUCTION CAN ANSWER: a next state, or a halt with a cause. -/
theorem exec_next_or_halts (i : Instr) (s : State) :
    (∃ t, exec i s = .next t) ∨ ∃ w, HaltCause i s w ∧ exec i s = .fault w := by
  cases hm : i.memOp? with
  | none => exact exec_of_format2 hm s
  | some m =>
    cases hres : resolve m s with
    | error k =>
      obtain rfl := resolve_error hres
      exact .inr ⟨_, .pointer m hm hres, exec_of_resolve_error hm hres⟩
    | ok d =>
      cases d with
      | imm v =>
        cases hneeds : needsAddress i with
        | true => exact .inr ⟨_, .immediate m v hm hres hneeds, exec_of_immediate hm hneeds hres⟩
        | false => exact exec_of_usable hm (.inl ⟨v, hres, hneeds⟩)
      | mem ea =>
        by_cases hin : dataWidth i = 0 ∨ s.InBounds ea.toNat (dataWidth i)
        · exact exec_of_usable hm (.inr ⟨ea, hres, hin⟩)
        · obtain ⟨hne, hout⟩ := not_or.1 hin
          have hpos := Nat.pos_of_ne_zero hne
          have hlt := Nat.not_le.1 hout
          exact .inr ⟨_, .outside m ea hm hres hpos hlt, operandOutsideMemoryHalts i m s ea hm hres hpos hlt⟩

/-- Settles O34: the hypotheses exclude each cause of a halt. -/
theorem everyInstructionCompletesOutsideTheNamedHalts :
    Obligations.EveryInstructionCompletesOutsideTheNamedHalts := by
  intro i s husable hdiv hdivr hrsub
  refine (exec_next_or_halts i s).resolve_right ?_
  rintro ⟨w, hcause, -⟩
  cases hcause with
  | pointer m hm hres =>
    obtain ⟨d, hd⟩ := Usable.resolves (husable m hm)
    simp [hres] at hd
  | immediate m v hm hres hneeds =>
    obtain ⟨ea, hea, -⟩ := Usable.address (husable m hm) hneeds
    simp [hres] at hea
  | outside m ea hm hres hpos hout =>
    obtain ⟨v, hv, -⟩ | ⟨ea', hea, hin⟩ := husable m hm
    · simp [hres] at hv
    · obtain rfl : ea = ea' := by simpa [hres] using hea
      exact (Nat.not_le.2 hout) (hin.resolve_left hpos.ne')
  | div m hi h0 => exact hdiv m hi h0
  | divr r1 r2 hi h0 => exact hdivr r1 r2 hi h0
  | rsub m hi hp =>
    subst hi
    simp [hrsub rfl] at hp

/-- Settles O35: each cause of a halt is one of the listed ones. -/
theorem haltsAreTheOnesTheSpecNames : Obligations.HaltsAreTheOnesTheSpecNames := by
  intro i s
  rcases exec_next_or_halts i s with h | ⟨w, hcause, h⟩
  · exact .inl h
  · right
    cases hcause with
    | pointer m hm _ => exact .inl ⟨m, hm, h⟩
    | immediate m v _ _ hneeds => exact .inr (.inl ⟨hneeds, h⟩)
    | outside m ea _ _ hpos _ => exact .inr (.inr (.inl ⟨hpos, h⟩))
    | div m hi _ => exact .inr (.inr (.inr (.inl ⟨.inl (hi ▸ rfl), h⟩)))
    | divr r1 r2 hi _ => exact .inr (.inr (.inr (.inl ⟨.inr (hi ▸ rfl), h⟩)))
    | rsub m hi hp => exact .inr (.inr (.inr (.inr ⟨hi ▸ rfl, hp, h⟩)))

end Sys2Proof.Machine
end

section
/-! Text records and relocation, byte by byte (spec/50_loader.md R271, R276). -/

namespace Sys2Proof.Machine

/-- Settles O55: the bytes that all exist are written by `writeList`; otherwise the record is only reported. -/
theorem textRecordIsWrittenWhollyOrNotAtAll : Obligations.TextRecordIsWrittenWhollyOrNotAtAll := by
  intro size n l start bytes hm base l'
  refine ⟨fun hin => ?written, fun hout => if_neg (Nat.not_le.2 hout)⟩
  case written =>
    have hl' : l' = { l with mem := l.mem.writeList base bytes } := by
      have hb : inBounds size base bytes.length := hin
      simp only [l', Loader.onText, base, if_pos hb, writeBytes]
    rw [hl']
    exact ⟨rfl, fun j hj => Memory.read_writeList l.mem base bytes hm j hj,
      fun b hb => Memory.read_writeList_outside l.mem base b bytes hm hb⟩

theorem Loader.applyEntry_of_inBounds {size : Nat} {l : Loader} {e : ModEntry} {sym : Word}
    (hsym : lookupSymbol l.estab e.sym = some sym) (hin : (e.cs + e.rel).toNat + 3 ≤ size) (k : Nat) :
    l.applyEntry size k e =
      { l with
        mem := l.mem.writeWord (e.cs + e.rel).toNat
          (relocate e.width e.op (l.mem.readWord (e.cs + e.rel).toNat) sym) } := by
  have hb : inBounds size (e.cs + e.rel).toNat 3 := hin
  simp only [Loader.applyEntry, hsym, if_pos hb]

theorem toNat_modApply_plus {w : Nat} (f s : BitVec w) :
    (modApply .plus f s).toNat = (f.toNat + s.toNat) % 2 ^ w := BitVec.toNat_add f s

/-- A difference is what the symbol's address must be added to to give the field back. -/
theorem toNat_modApply_minus {w : Nat} (f s : BitVec w) :
    ((modApply .minus f s).toNat + s.toNat) % 2 ^ w = f.toNat := by
  rw [modApply, ← BitVec.toNat_add, BitVec.sub_add_cancel]

theorem toNat_low20 (v : Word) : (v.extractLsb' 0 20).toNat = v.toNat % 2 ^ 20 := by
  rw [BitVec.extractLsb'_toNat, Nat.shiftRight_zero]

/-- A width of 5 is a high nibble that is kept and a 20-bit field. -/
theorem toNat_relocate_five (op : ModOp) (v s : Word) :
    (relocate .five op v s).toNat =
      v.toNat / 2 ^ 20 * 2 ^ 20 + (modApply op (v.extractLsb' 0 20) (s.extractLsb' 0 20)).toNat := by
  have hv := v.isLt
  rw [relocate, BitVec.toNat_append, ← Nat.shiftLeft_add_eq_or_of_lt (BitVec.isLt _), Nat.shiftLeft_eq,
    BitVec.extractLsb'_toNat, Nat.shiftRight_eq_div_pow, Nat.mod_eq_of_lt (by omega)]

/-- Settles O56: the word written reads back, so the field is what `relocate` made of it. -/
theorem relocationEditsOnlyItsField : Obligations.RelocationEditsOnlyItsField := by
  intro size k l e sym hm hsym hin a v l' v'
  have hl' : l' = { l with mem := l.mem.writeWord a (relocate e.width e.op (l.mem.readWord a) sym) } :=
    Loader.applyEntry_of_inBounds hsym hin k
  have hv' : v' = (relocate e.width e.op (l.mem.readWord a) sym).toNat := by
    simp only [v', hl', Memory.readWord_writeWord l.mem a _ hm]
  rw [hv', hl']
  refine ⟨rfl, fun b hb => Memory.read_writeWord_outside hm a _ hb, fun hw => ?five, fun hw => ?six⟩
  case five =>
    have hfield := (modApply e.op ((l.mem.readWord a).extractLsb' 0 20) (sym.extractLsb' 0 20)).isLt
    rw [hw, toNat_relocate_five]
    refine ⟨by omega, fun hop => ?_, fun hop => ?_⟩
    · have hplus := toNat_modApply_plus ((l.mem.readWord a).extractLsb' 0 20) (sym.extractLsb' 0 20)
      rw [toNat_low20, toNat_low20] at hplus
      rw [hop, hplus]
      omega
    · have hminus := toNat_modApply_minus ((l.mem.readWord a).extractLsb' 0 20) (sym.extractLsb' 0 20)
      rw [toNat_low20, toNat_low20] at hminus
      rw [hop]
      omega
  case six =>
    rw [hw, relocate]
    exact ⟨fun hop => hop ▸ toNat_modApply_plus _ _, fun hop => hop ▸ toNat_modApply_minus _ _⟩

end Sys2Proof.Machine
end

section
/-! The scan (spec/50_loader.md R264 to R270, R273, R280). -/

namespace Sys2Proof.Machine

/-- Definitions neither read nor change the buffer of M records, and leave the section's address. -/
theorem Loader.onDefine_onModify (n : Nat) (l : Loader) (groups : List DefGroup) (rel : Word)
    (w : ModWidth) (op : ModOp) (sym : Text) :
    (l.onModify rel w op sym).onDefine n groups = (l.onDefine n groups).onModify rel w op sym := by
  induction groups generalizing l with
  | nil => rfl
  | cons g rest ih =>
    cases g with
    | none => exact ih (l.note (.line n .malformed))
    | some g => exact ih (l.define g.1 (l.csAddr + g.2))

/-- Settles O58: the two records commute, so what follows them starts from the same loader state. -/
theorem definitionsMayFollowTheirUses : Obligations.DefinitionsMayFollowTheirUses := by
  intro size n n' l groups rel w op sym later
  rw [Loader.onDefine_onModify]

theorem Loader.setEntry_keeps (l : Loader) (a : Word) :
    l.setEntry a = { l with entry := (l.setEntry a).entry, entrySet := (l.setEntry a).entrySet } := by
  unfold Loader.setEntry
  split <;> rfl

/-- Whatever its address field, an E record ends its section, and reports only a malformed one (R269, R270). -/
theorem Loader.onEnd_accounting (n : Nat) (l : Loader) (field : EndField) :
    (l.onEnd n field).total = l.total + l.csLength ∧ (l.onEnd n field).nextAddr = l.csAddr + l.csLength ∧
      (l.onEnd n field).mem = l.mem ∧
      (l.onEnd n field).report =
        if field = .bad then l.report ++ [.line n .malformed] else l.report := by
  cases field with
  | absent | address a =>
    rw [Loader.onEnd, Loader.setEntry_keeps]
    exact ⟨rfl, rfl, rfl, rfl⟩
  | bad => exact ⟨rfl, rfl, rfl, rfl⟩

/-- An entry that is set stays (R269). -/
theorem Loader.onEnd_of_entrySet {l : Loader} (h : l.entrySet = true) (n : Nat) (field : EndField) :
    (l.onEnd n field).entrySet = true ∧ (l.onEnd n field).entry = l.entry := by
  have hset (a : Word) : l.setEntry a = l := if_pos h
  cases field with
  | absent | address a =>
    rw [Loader.onEnd, hset]
    exact ⟨h, rfl⟩
  | bad => exact ⟨h, rfl⟩

/-- An entry that is not set is set by the first E record that is not malformed (R269). -/
theorem Loader.setEntry_of_unset {l : Loader} (h : l.entrySet = false) (a : Word) :
    l.setEntry a = { l with entry := a, entrySet := true } := by
  simp [Loader.setEntry, h]

/-- Settles O59: H places the section, E accounts for it, and the entry is set once. -/
theorem sectionsArePlacedOneAfterAnother : Obligations.SectionsArePlacedOneAfterAnother := by
  refine ⟨fun n l name name' sym start start' len len' rel a => ?sections, by decide, by decide, by decide,
    by decide, by decide⟩
  case sections =>
    intro first
    refine ⟨rfl, if_pos rfl, fun field => ?_, fun h => ?_⟩
    · intro ended second
      obtain ⟨htotal, hnext, hmem, hreport⟩ := Loader.onEnd_accounting n first field
      exact ⟨htotal, hmem, hreport, hnext, (if_pos rfl).trans (congrArg some hnext),
        fun h => Loader.onEnd_of_entrySet (l := first) h n field,
        fun later h => (Loader.onEnd_of_entrySet (l := second) h n later).2⟩
    · have hset (a : Word) : first.setEntry a = { first with entry := a, entrySet := true } :=
        Loader.setEntry_of_unset (l := first) h a
      rw [Loader.onEnd, Loader.onEnd, Loader.onEnd, hset, hset]
      exact ⟨rfl, rfl, rfl, rfl, rfl, h⟩

/-- The header after a scan is the one before it, or the first H record's (R264). -/
theorem Loader.scan_header (size n : Nat) (l : Loader) (lines : List Text) :
    (Loader.scan size n l lines).header =
      l.header.or (lines.findSome? fun line => (parseRecord (stripTerminator line)).headerFields) := by
  induction lines generalizing n l with
  | nil => simp [Loader.scan]
  | cons line rest ih =>
    rw [Loader.scan, ih, Loader.onRecord_header, List.findSome?_cons, Option.or_assoc]
    cases (parseRecord (stripTerminator line)).headerFields <;> rfl

/-- Relocation keeps what the scan left to publish. -/
theorem Loader.finalize_keeps (size : Nat) (l : Loader) :
    (l.finalize size).total = l.total ∧ (l.finalize size).entry = l.entry ∧
      (l.finalize size).header = l.header := by
  rw [Loader.finalize, Loader.applyAll_keeps]
  exact ⟨rfl, rfl, rfl⟩

/-- Settles O60: the fields published are the scan's, which relocation keeps. -/
theorem loadTouchesOnlyMemoryAndMetadata : Obligations.LoadTouchesOnlyMemoryAndMetadata := by
  intro s lines t scanned firstHeader
  obtain ⟨htotal, hentry, hheader⟩ := Loader.finalize_keeps s.params.memSize scanned
  have hfirst : scanned.header = firstHeader := by
    simp [scanned, firstHeader, Loader.scan_header, Loader.start]
  rw [hfirst] at hheader
  refine ⟨fun hs => loadLines_fits lines hs, rfl, rfl, rfl, rfl, rfl, rfl, rfl, rfl, rfl, rfl, htotal, hentry, rfl,
    fun name start h => ?some, fun h => ?none⟩
  all_goals
    rw [h] at hheader
    constructor
    · show ((scanned.finalize s.params.memSize).header.map Prod.fst).getD _ = _
      rw [hheader]
      rfl
    · show ((scanned.finalize s.params.memSize).header.map Prod.snd).getD _ = _
      rw [hheader]
      rfl

end Sys2Proof.Machine
end
